-- ==== Sys2Proof/Word.lean ====
section
/-! DEFINITION. The word and byte types. Registers and addresses are 32 bits (10_state.md R10, R45, R53). -/

namespace Sys2Proof

/-- A 32-bit register or address (10_state.md R10, R45; ADDR_WIDTH = 32, 00_scope.md section 4; PRESUMED, log 3). -/
abbrev Word := BitVec 32

/-- A byte of instruction memory (20_memory.md R70). -/
abbrev Byte := BitVec 8

end Sys2Proof
end

