-- ==== Sys2Proof/Syntax.lean ====
section
/-! DEFINITION. The instructions: one constructor per row of spec/opcode_table.json. -/

namespace Sys2Proof

/-- The class of a floating-point operation, as far as the rules speak of it: the exempt classes of the
signaling-NaN rule (40_fp_instructions.md R107), comparison (R109), the ordered comparison (41_fpscr_to_cr.md
R124), and every other operation. The source does not say which instruction is in which class, so the
statement carries it (log 29). -/
inductive FpKind
  | load
  | store
  | move
  | select
  | compare
  | compareOrdered
  | other
  deriving DecidableEq, Repr, Inhabited

/-- "A floating-point instruction" without its dot: the `i` of `FpStatus(i, ops, fpscr)`
(40_fp_instructions.md section 0.1). `code` identifies the mnemonic and the operands as written; for a
statement that has a word it is instruction bits 0 to 30, all but the record bit (30_encoding.md R89). -/
structure FpOp where
  kind : FpKind
  code : BitVec 31
  deriving DecidableEq, Repr, Inhabited

/-- The *address* operand of a branch. `addr a` is the operand of the text level, the target itself
(30_encoding.md R85). `disp d` is the relative form of the binary level, the BD field (R87, AA = 0). -/
inductive Target
  | addr (a : Word)
  | disp (d : BitVec 14)
  deriving DecidableEq, Repr

/-- The rows of the opcode table (30_encoding.md section 4, and the synonym `bt` of 42_cond_branches.md R145). -/
inductive Instr
  /-- `<fpinstr>`: any floating-point instruction without a dot (R100). -/
  | fpinstr (op : FpOp)
  /-- `<fpinstr>.`: the same with a dot (R101). -/
  | fpinstrDot (op : FpOp)
  /-- `mtfsf` (R112), with the operands and record bit of its usual form (93 GK19). -/
  | mtfsf (fm : BitVec 8) (frB : BitVec 5) (rc : Bool)
  /-- `<fpscr-to-cr> f, s` (R121). -/
  | fpscrToCr (f s : Nat)
  /-- `bta b, a` (R131). -/
  | bta (b : Nat) (a : Word)
  /-- `bt b, a`, the synonym of `bta` (R145). -/
  | bt (b : Nat) (t : Target)
  | blt (k : Nat) (t : Target)
  | ble (k : Nat) (t : Target)
  | beq (k : Nat) (t : Target)
  | bge (k : Nat) (t : Target)
  | bgt (k : Nat) (t : Target)
  | bnl (k : Nat) (t : Target)
  | bne (k : Nat) (t : Target)
  | bng (k : Nat) (t : Target)
  | bun (k : Nat) (t : Target)
  | bnu (k : Nat) (t : Target)
  deriving DecidableEq, Repr

end Sys2Proof
end

