-- ==== Sys2Proof/Config.lean ====
section
/-! DEFINITION. What an implementation fixes (the parameters of 00_scope.md section 4) and the free values. -/

namespace Sys2Proof

/-- FEX_READING: what FPSCR bit 1 summarises (10_state.md R13, 40_fp_instructions.md R106; OPEN, 92 D5). -/
inductive FexReading
  | sourceLiteral
  | enabledExceptionOccurred
  deriving DecidableEq, Repr

/-- LE_GE_READING: the condition of `ble` and `bge` (42_cond_branches.md R144; OPEN, 92 D11). -/
inductive LeGeReading
  | sourceLiteral
  | singleBit
  deriving DecidableEq, Repr

/-- XferEffect: the FPSCR after `<fpscr-to-cr>` (41_fpscr_to_cr.md R121; OPEN, 92 D18). -/
inductive XferEffect
  | keep
  | clearCopiedStatus
  deriving DecidableEq, Repr

/-- BRANCH_FIELDS: the field numbers a field branch admits, {0..7} or {2,3,4} (30_encoding.md R83, 92 D13). -/
inductive BranchFields
  | zeroToSeven
  | twoToFour
  deriving DecidableEq, Repr

/-- The parameters the spec says a model takes as arguments (INDEX.md, "Open parameters"). They are launch
inputs, held in State and written by no step, so a statement about every state holds for every value (log 4). -/
structure Params where
  fexReading : FexReading
  leGeReading : LeGeReading
  xferEffect : XferEffect
  branchFields : BranchFields
  /-- HAS_VXSOFT_VXSQRT: FPSCR bits 21 and 22 are implemented (10_state.md R33, R34). -/
  hasVxsoftVxsqrt : Bool
  deriving DecidableEq, Repr

/-- A floating-point exception, by cause (60_exceptions.md R150), with the usual names of 93 GK2.
Its number is its FPSCR status bit (`statusBit`). -/
inductive Exc
  | ox | ux | zx | xx
  | vxsnan | vxisi | vxidi | vxzdz | vximz | vxvc
  | vxsoft | vxsqrt | vxcvi
  deriving DecidableEq, Repr

/-- The outcome of a comparison: one of FPSCR bits 16 to 19 (40_fp_instructions.md R109). -/
inductive CmpResult
  | less | greater | equal | unordered
  deriving DecidableEq, Repr, Inhabited

/-- An operand value of a floating-point instruction. The source gives no data format (91 N8, N12), so a
value is an uninterpreted code. -/
structure FpValue where
  code : Nat
  deriving DecidableEq, Repr, Inhabited

/-- What the uninterpreted numerics function answers before the rules that constrain it are applied
(`conformOut`, Machine/Flags.lean). `cmp` and `cmpClass` are read for a comparison only, `cls` for the rest. -/
structure FpRaw where
  ev : List Exc
  fr : Option Bool
  fi : Option Bool
  cls : Option (BitVec 5)
  cmp : CmpResult
  cmpClass : Bool
  deriving DecidableEq, Repr, Inhabited

/-- The record `out` of `FpStatus` (40_fp_instructions.md section 0.1). `cls` is FPSCR[15:19], its first bit
the most significant. -/
structure FpOut where
  ev : List Exc
  fr : Option Bool
  fi : Option Bool
  cls : Option (BitVec 5)
  deriving DecidableEq, Repr

/-- FREE: the operand values of the n-th floating-point instruction executed. The floating-point registers
are not state (10_state.md R55), so nothing constrains them (log 7). -/
opaque Config.fpOperands : Nat → FpOp → List FpValue

/-- FREE: which values are signaling NaNs; the source does not define one (40_fp_instructions.md R107, log 8). -/
opaque Config.isSignalingNaN : FpValue → Bool

/-- FREE: which values are NaNs that are not signaling; the source does not define one (41_fpscr_to_cr.md R124,
log 8). -/
opaque Config.isQuietNaN : FpValue → Bool

/-- FREE: the numerics function `FpStatus` of the instruction, its operand values, the rounding direction
FPSCR[30:31] and the enable bits FPSCR[24:28] (40_fp_instructions.md section 0.1, 92 D6; log 7). -/
opaque Config.fpStatus : FpOp → List FpValue → BitVec 2 → BitVec 5 → FpRaw

/-- FREE: FPSCR bit 0 when only exceptions already recorded recur while it is 0
(40_fp_instructions.md R105, 93 U7; log 9). -/
opaque Config.freeBit0 : Nat → Bool

end Sys2Proof
end

