-- ==== Sys2Proof/Decode.lean ====
section
/-! DEFINITION. The binary supplement: the decoder, total on any word and any bytes, and the encoder.
The spec gives every encoding as general knowledge (30_encoding.md section 5, 41_fpscr_to_cr.md R124,
93 GK13, GK16, GK19, GK20); instruction bit 0 is the most significant (30_encoding.md R86). -/

namespace Sys2Proof

/-- Why a word is no instruction of the model. -/
inductive Reject
  /-- No row of 30_encoding.md section 4 (R90, 42_cond_branches.md R146). -/
  | notInSpec
  /-- An FPSCR-manipulating instruction the spec does not specify (40_fp_instructions.md R113). -/
  | notSpecified
  /-- Fewer than four bytes. -/
  | truncated
  deriving DecidableEq, Repr

/-- What the decoder answers. -/
inductive Decoded
  | instr (i : Instr)
  | reject (r : Reject)
  deriving DecidableEq, Repr

/-! ## Words and bytes -/

/-- Instruction bits `first` to `last`, bit 0 the most significant (30_encoding.md R86). -/
def insnBits (w : Word) (first last : Nat) : BitVec (last - first + 1) :=
  w.extractLsb' (31 - last) (last - first + 1)

/-- A word's four bytes, most significant first (20_memory.md R72; PRESUMED, log 23). -/
def wordBytes (w : Word) : List Byte :=
  [insnBits w 0 7, insnBits w 8 15, insnBits w 16 23, insnBits w 24 31]

/-- The word of four bytes, the first the most significant (20_memory.md R72). -/
def wordOfBytes (b0 b1 b2 b3 : Byte) : Word := b0 ++ b1 ++ b2 ++ b3

/-! ## Floating-point words -/

/-- One floating-point instruction's word: `w` is it when `w &&& mask = pattern`. With `dot` the record bit
is outside the mask (30_encoding.md R89). Whether every floating-point instruction has a dot form is not in the
spec (R80): that the words of the two compares have none is the family's (PRESUMED, log 34). -/
structure FpRow where
  mask : Word
  pattern : Word
  kind : FpKind
  dot : Bool
  deriving DecidableEq, Repr

/-- Floating-point words the spec gives: fadd, fdiv, fmul (93 GK20), fcmpu, fcmpo (93 GK16; with bit 31 set a
compare's word is no row and is refused, log 34). -/
def fpRowsOfSpec : List FpRow :=
  [⟨0xFC0007FE#32, 0xFC00002A#32, .other, true⟩,
   ⟨0xFC0007FE#32, 0xFC000024#32, .other, true⟩,
   ⟨0xFC00F83E#32, 0xFC000032#32, .other, true⟩,
   ⟨0xFC6007FF#32, 0xFC000000#32, .compare, false⟩,
   ⟨0xFC6007FF#32, 0xFC000040#32, .compareOrdered, false⟩]

/-- The MPC601's other floating-point words (PRESUMED, log 21): fsub, fmsub, fmadd, fnmsub, fnmadd, frsp,
fctiw, fctiwz, and of the class move fneg, fnabs, fabs, fmr. That the three sign operations are moves, exempt
from the signaling-NaN exception, is the family's grouping and not in the spec (PRESUMED, log 31). -/
def fpRowsOfFamily : List FpRow :=
  [⟨0xFC0007FE#32, 0xFC000028#32, .other, true⟩,
   ⟨0xFC00003E#32, 0xFC000038#32, .other, true⟩,
   ⟨0xFC00003E#32, 0xFC00003A#32, .other, true⟩,
   ⟨0xFC00003E#32, 0xFC00003C#32, .other, true⟩,
   ⟨0xFC00003E#32, 0xFC00003E#32, .other, true⟩,
   ⟨0xFC1F07FE#32, 0xFC000018#32, .other, true⟩,
   ⟨0xFC1F07FE#32, 0xFC00001C#32, .other, true⟩,
   ⟨0xFC1F07FE#32, 0xFC00001E#32, .other, true⟩,
   ⟨0xFC1F07FE#32, 0xFC000050#32, .move, true⟩,
   ⟨0xFC1F07FE#32, 0xFC000110#32, .move, true⟩,
   ⟨0xFC1F07FE#32, 0xFC000210#32, .move, true⟩,
   ⟨0xFC1F07FE#32, 0xFC000090#32, .move, true⟩]

/-- The single-precision words of primary opcode 59 (PRESUMED, log 21): fadds, fsubs, fdivs, fmuls, fmsubs,
fmadds, fnmsubs, fnmadds. -/
def fpRowsSingle : List FpRow :=
  [⟨0xFC0007FE#32, 0xEC00002A#32, .other, true⟩,
   ⟨0xFC0007FE#32, 0xEC000028#32, .other, true⟩,
   ⟨0xFC0007FE#32, 0xEC000024#32, .other, true⟩,
   ⟨0xFC00F83E#32, 0xEC000032#32, .other, true⟩,
   ⟨0xFC00003E#32, 0xEC000038#32, .other, true⟩,
   ⟨0xFC00003E#32, 0xEC00003A#32, .other, true⟩,
   ⟨0xFC00003E#32, 0xEC00003C#32, .other, true⟩,
   ⟨0xFC00003E#32, 0xEC00003E#32, .other, true⟩]

def fpRows : List FpRow := fpRowsOfSpec ++ fpRowsOfFamily ++ fpRowsSingle

/-- The row a word belongs to. -/
def fpRowOf (w : Word) : Option FpRow := fpRows.find? (fun r => w &&& r.mask == r.pattern)

/-! ## Decoding -/

/-- The field branches by the condition's sense and the bit tested (30_encoding.md R88). `bge` and `ble` share
the words of `bnl` and `bng`, which the decoder answers, as R88 says. `bt`'s words are those of `blt`, `bgt`,
`beq`, `bun`, and R88 does not say which row decodes: the decoder answers the field branch (DESIGN CHOICE, log
20), and where BRANCH_FIELDS does not admit its field the step runs the word as `bt` (`admittedRow`). -/
def fieldBranch (ifSet : Bool) (j k : Nat) (t : Target) : Instr :=
  match ifSet, j with
  | true, 0 => .blt k t
  | true, 1 => .bgt k t
  | true, 2 => .beq k t
  | true, _ => .bun k t
  | false, 0 => .bnl k t
  | false, 1 => .bng k t
  | false, 2 => .bne k t
  | false, _ => .bnu k t

/-- The target of an absolute branch: BD, two zero bits, sign-extended (30_encoding.md R87, AA = 1). -/
def absoluteTarget (bd : BitVec 14) : Word := (bd ++ 0#2).signExtend 32

/-- Primary opcode 16, B-form (30_encoding.md R87). Bit 10, the hint `y`, is not read (R90). -/
def decodeBranch (w : Word) : Decoded :=
  let bi := (insnBits w 11 15).toNat
  let bd := insnBits w 16 29
  if insnBits w 31 31 = 1#1 then .reject .notInSpec
  else if insnBits w 6 9 = 0b0110#4 then
    if insnBits w 30 30 = 1#1 then .instr (.bta bi (absoluteTarget bd))
    else .instr (fieldBranch true (bi % 4) (bi / 4) (.disp bd))
  else if insnBits w 6 9 = 0b0010#4 then
    if insnBits w 30 30 = 1#1 then .reject .notInSpec
    else .instr (fieldBranch false (bi % 4) (bi / 4) (.disp bd))
  else .reject .notInSpec

/-- Primary opcode 63 words that are no floating-point row: `mcrfs` (41_fpscr_to_cr.md R124), `mtfsf`
(93 GK19), and the FPSCR-manipulating words mffs, mtfsfi, mtfsb0, mtfsb1 by their extended opcode (93 GK19).
The bits no operand of `mcrfs` (9, 10, 14 to 20, 31) or of `mtfsf` (6, 15) names must be 0: the spec gives
only the opcodes and the operand fields (PRESUMED, log 32). -/
def decodeFpscr (w : Word) : Decoded :=
  let xo := (insnBits w 21 30).toNat
  if xo = 64 then
    if insnBits w 9 10 = 0#2 ∧ insnBits w 14 20 = 0#7 ∧ insnBits w 31 31 = 0#1 then
      .instr (.fpscrToCr (insnBits w 6 8).toNat (insnBits w 11 13).toNat)
    else .reject .notInSpec
  else if xo = 711 then
    if insnBits w 6 6 = 0#1 ∧ insnBits w 15 15 = 0#1 then
      .instr (.mtfsf (insnBits w 7 14) (insnBits w 16 20) (insnBits w 31 31 == 1#1))
    else .reject .notInSpec
  else if xo = 583 ∨ xo = 134 ∨ xo = 70 ∨ xo = 38 then .reject .notSpecified
  else .reject .notInSpec

/-- The instruction of a word. -/
def decode (w : Word) : Decoded :=
  if insnBits w 0 5 = 16#6 then decodeBranch w
  else
    match fpRowOf w with
    | some r =>
      let op : FpOp := ⟨r.kind, insnBits w 0 30⟩
      if r.dot ∧ insnBits w 31 31 = 1#1 then .instr (.fpinstrDot op) else .instr (.fpinstr op)
    | none => if insnBits w 0 5 = 63#6 then decodeFpscr w else .reject .notInSpec

/-- The instruction at the head of a list of bytes, and the bytes after it. -/
def decodeBytes : List Byte → Decoded × List Byte
  | b0 :: b1 :: b2 :: b3 :: rest => (decode (wordOfBytes b0 b1 b2 b3), rest)
  | short => (.reject .truncated, short)

/-- The Condition Register field crfD a comparison's word names, instruction bits 6 to 8: the real compares also
store their result there (41_fpscr_to_cr.md R124, 93 GK16; log 33). None for every other instruction. -/
def compareField : Instr → Option Nat
  | .fpinstr op =>
    if op.kind = .compare ∨ op.kind = .compareOrdered then some (op.code.extractLsb' 22 3).toNat else none
  | .fpinstrDot _ => none
  | .mtfsf _ _ _ => none
  | .fpscrToCr _ _ => none
  | .bta _ _ => none
  | .bt _ _ => none
  | .blt _ _ => none
  | .ble _ _ => none
  | .beq _ _ => none
  | .bge _ _ => none
  | .bgt _ _ => none
  | .bnl _ _ => none
  | .bne _ _ => none
  | .bng _ _ => none
  | .bun _ _ => none
  | .bnu _ _ => none

/-- The host's reading of a table word: one 32-bit word, laid out big-endian and given to the decoder. -/
def decodeTableWord (nbits w : Nat) : Option Instr :=
  match (decodeBytes (wordBytes (BitVec.ofNat 32 (w % 2 ^ nbits)))).1 with
  | .instr i => some i
  | .reject _ => none

/-! ## Encoding -/

/-- A B-form word with LK = 0 and the hint clear (30_encoding.md R87): BO is `bo` and the hint. -/
def encodeB (bo : BitVec 4) (bi : Nat) (bd : BitVec 14) (aa : Bool) : Word :=
  16#6 ++ bo ++ 0#1 ++ BitVec.ofNat 5 bi ++ bd ++ BitVec.ofBool aa ++ 0#1

/-- A field branch: BI = 4k + j (30_encoding.md R87, R88). A target of the text level has no displacement of
its own, so it has no word. -/
def encodeField (bo : BitVec 4) (j k : Nat) : Target → Option Word
  | .disp bd => if k < 8 then some (encodeB bo (4 * k + j) bd false) else none
  | .addr _ => none

/-- A floating-point word from its 31 bits and the record bit, when they are of a row of the statement's class. -/
def encodeFp (op : FpOp) (rc : Bool) : Option Word :=
  let w : Word := op.code ++ BitVec.ofBool rc
  match fpRowOf w with
  | some r => if r.kind = op.kind ∧ (rc → r.dot) then some w else none
  | none => none

/-- The word of an instruction, where the binary supplement gives it one. -/
def encode : Instr → Option Word
  | .fpinstr op => encodeFp op false
  | .fpinstrDot op => encodeFp op true
  | .mtfsf fm frB rc =>
    some (63#6 ++ 0#1 ++ fm ++ 0#1 ++ frB ++ 711#10 ++ BitVec.ofBool rc)
  | .fpscrToCr f s =>
    if f < 8 ∧ s < 8 then
      some (63#6 ++ BitVec.ofNat 3 f ++ 0#2 ++ BitVec.ofNat 3 s ++ 0#7 ++ 64#10 ++ 0#1)
    else none
  | .bta b a =>
    let bd := a.extractLsb' 2 14
    if b < 32 ∧ absoluteTarget bd = a then some (encodeB 0b0110#4 b bd true) else none
  | .bt b t =>
    match t with
    | .disp bd => if b < 32 then some (encodeB 0b0110#4 b bd false) else none
    | .addr _ => none
  | .blt k t => encodeField 0b0110#4 0 k t
  | .bgt k t => encodeField 0b0110#4 1 k t
  | .beq k t => encodeField 0b0110#4 2 k t
  | .bun k t => encodeField 0b0110#4 3 k t
  | .bnl k t => encodeField 0b0010#4 0 k t
  | .bng k t => encodeField 0b0010#4 1 k t
  | .bne k t => encodeField 0b0010#4 2 k t
  | .bnu k t => encodeField 0b0010#4 3 k t
  | .bge k t => encodeField 0b0010#4 0 k t
  | .ble k t => encodeField 0b0010#4 1 k t

/-- The instruction the words of `i` decode to (30_encoding.md R88): `bge` decodes to `bnl`, `ble` to `bng`,
and `bt 4k+j` to the field branch on bit j of field k (log 20). -/
def Instr.canonical : Instr → Instr
  | .fpinstr op => .fpinstr op
  | .fpinstrDot op => .fpinstrDot op
  | .mtfsf fm frB rc => .mtfsf fm frB rc
  | .fpscrToCr f s => .fpscrToCr f s
  | .bta b a => .bta b a
  | .bt b t => fieldBranch true (b % 4) (b / 4) t
  | .blt k t => .blt k t
  | .ble k t => .bng k t
  | .beq k t => .beq k t
  | .bge k t => .bnl k t
  | .bgt k t => .bgt k t
  | .bnl k t => .bnl k t
  | .bne k t => .bne k t
  | .bng k t => .bng k t
  | .bun k t => .bun k t
  | .bnu k t => .bnu k t

end Sys2Proof
end

