-- ==== Sys2Proof/Machine/State.lean ====
section
/-! DEFINITION. The machine's state as plain data, the reasons a step can stop, and the state after reset. -/

namespace Sys2Proof.Machine

/-- The program text at the text level: (address, statement), addresses strictly rising
(20_memory.md R74, R75, R78). -/
abbrev Text := List (Nat × Instr)

/-- The program text at the binary level: (address, byte), addresses strictly rising; an unlisted address
reads as nothing (20_memory.md R75, log 23). -/
abbrev Memory := List Host.Cell

/-- The launch state and what a run makes of it (70_reset_and_hazards.md R170). -/
structure State where
  /-- The Floating-Point Status and Control Register (10_state.md R10). -/
  fpscr : Word
  /-- The Condition Register (10_state.md R45). -/
  cr : Word
  /-- Machine State Register bit 20 (10_state.md R44, R58). -/
  msr20 : Bool
  /-- Machine State Register bit 23 (10_state.md R44, R58). -/
  msr23 : Bool
  /-- The address of the instruction being executed (10_state.md R53). -/
  pc : Word
  /-- END_ADDR (70_reset_and_hazards.md section 5), or none designated (log 6). -/
  endAddr : Option Word
  /-- The statements of the program (log 1). -/
  text : Text
  /-- The bytes of the program's instruction words (log 1). -/
  mem : Memory
  /-- The parameters of 00_scope.md section 4 (log 4). -/
  params : Params
  /-- The model's own counter: floating-point instructions executed, to which free values are applied (log 7). -/
  fpSeq : Nat
  deriving DecidableEq, Repr

/-- Why the machine stops with a fault. -/
inductive Fault
  /-- `FloatingPointEnabledException(ev, pc)` (60_exceptions.md R153): raised by `<fpinstr>` and `<fpinstr>.`
  through `raiseFpEnabled`. `recorded` is the state in which the fault state stands: the status and, for a
  dot form, CR1 recorded (for a comparison's word also the field it names, log 33), the pc still at the
  instruction. Terminal; safe (log 11). -/
  | floatingPointEnabledException (ev : List Exc) (pc : Word) (recorded : State)
  deriving DecidableEq, Repr

/-- Why there is no next state and no fault. -/
inductive Refusal
  /-- An arm of `exec` with no meaning yet; none is left. Safe. -/
  | notModelled (mnemonic : String)
  /-- `refuse(not_specified)`: raised by `mtfsf` (40_fp_instructions.md R112) and by the fetch of an
  FPSCR-manipulating word (R113). Safe. -/
  | notSpecified
  /-- `refuse(not_in_spec)`: raised by the fetch of a word that is no row (30_encoding.md R90) and by operands
  out of range (R83, R84). Safe. -/
  | notInSpec
  /-- `refuse(field_outside_source)`: raised by `<fpscr-to-cr>` and by a comparison's word, which stores as
  it does, for a destination outside CR2 to CR4 (41_fpscr_to_cr.md R122, R124). Safe. -/
  | fieldOutsideSource
  /-- `refuse(misaligned_target)`: raised by a taken branch (20_memory.md R73). Safe. -/
  | misalignedTarget
  /-- `refuse(target_outside_program)`: raised by a taken branch (20_memory.md R75). Safe. -/
  | targetOutsideProgram
  /-- `refuse(pending_enabled_exception)`: raised by the step (60_exceptions.md R154). Safe. -/
  | pendingEnabledException
  /-- The pc is no multiple of INSTR_BYTES (20_memory.md R73, premise PcInProgram): raised by the step. Safe. -/
  | misalignedPc
  /-- The pc holds no statement (20_memory.md R75, premise PcInProgram): raised by the step. Safe. -/
  | pcOutsideProgram
  /-- Not a refused instruction: the pc is END_ADDR, the run has ended and the state is final
  (70_reset_and_hazards.md section 5). Raised by the step. Safe. -/
  | programEnded
  deriving DecidableEq, Repr

/-- The parameter values at reset: the value 00_scope.md section 4 calls the rule, the decision or the value
for the MPC601 (DESIGN CHOICE, log 4). -/
def Params.reset : Params where
  fexReading := .sourceLiteral
  leGeReading := .sourceLiteral
  xferEffect := .keep
  branchFields := .zeroToSeven
  hasVxsoftVxsqrt := false

/-- The spec gives no reset value for anything (10_state.md R56): every value here is a DESIGN CHOICE (log 4,
5, 6, 7), and a claim quantifies over every launch state (70_reset_and_hazards.md R170). -/
def State.reset : State where
  fpscr := 0#32
  cr := 0#32
  msr20 := false
  msr23 := false
  pc := 0#32
  endAddr := none
  text := []
  mem := []
  params := Params.reset
  fpSeq := 0

/-! ## Updates of one field -/

def State.withFpscr (s : State) (v : Word) : State := { s with fpscr := v }
def State.withCr (s : State) (v : Word) : State := { s with cr := v }
def State.withPc (s : State) (v : Word) : State := { s with pc := v }
def State.withEndAddr (s : State) (v : Option Word) : State := { s with endAddr := v }
def State.withText (s : State) (v : Text) : State := { s with text := v }
def State.withMem (s : State) (v : Memory) : State := { s with mem := v }
def State.withFpSeq (s : State) (v : Nat) : State := { s with fpSeq := v }

end Sys2Proof.Machine
end

