-- ==== Sys2Proof/Machine/Operands.lean ====
section
/-! DEFINITION. Register bits and fields by the source's numbers, and the operand forms *field*, *bit* and
*address*. -/

namespace Sys2Proof.Machine

/-- Bit i of a register, bit 0 the most significant (00_scope.md R3, 92 D1; log 2). -/
def regBit (x : Word) (i : Nat) : Bool := x.getMsbD i

/-- The first n bits of a register whose bit i is `f i`. -/
def leadingBits (f : Nat → Bool) : (n : Nat) → BitVec n
  | 0 => 0#0
  | n + 1 => (leadingBits f n).concat (f n)

/-- The register whose bit i is `f i`, for i in 0..31 (00_scope.md R3). -/
def ofBits (f : Nat → Bool) : Word := leadingBits f 32

/-- `X[4k : 4k+3] <- Y[4s : 4s+3]`, bit j to bit j: field k is bits 4k to 4k+3 (10_state.md R11, R46). -/
def copyField (x : Word) (k : Nat) (y : Word) (s : Nat) : Word :=
  ofBits fun i => if 4 * k ≤ i ∧ i < 4 * k + 4 then regBit y (4 * s + (i - 4 * k)) else regBit x i

/-- FPSCR[30:31], the rounding direction (10_state.md R42). -/
def roundingDirection (fpscr : Word) : BitVec 2 := fpscr.extractLsb' 0 2

/-- FPSCR[24:28], the enable bits (10_state.md R36 to R40). -/
def enableBits (fpscr : Word) : BitVec 5 := fpscr.extractLsb' 3 5

/-- Whether a field branch may name field k (30_encoding.md R83; log 17). -/
def admitsField (p : Params) (k : Nat) : Bool :=
  match p.branchFields with
  | .zeroToSeven => decide (k < 8)
  | .twoToFour => decide (2 ≤ k ∧ k ≤ 4)

/-- The address an *address* operand stands for: itself at the text level (30_encoding.md R85), and
`pc + sext(BD || 0b00)` for the relative form (R87, AA = 0). -/
def branchTarget (pc : Word) : Target → Word
  | .addr a => a
  | .disp bd => pc + (bd ++ 0#2).signExtend 32

/-- A multiple of INSTR_BYTES = 4 (20_memory.md R73). -/
def aligned (a : Word) : Bool := a.toNat % 4 == 0

/-- `next = pc + INSTR_BYTES` modulo 2^ADDR_WIDTH (10_state.md R53; log 3). -/
def nextPc (pc : Word) : Word := pc + 4#32

end Sys2Proof.Machine
end

