-- ==== Sys2Proof/Machine/Flags.lean ====
section
/-! DEFINITION. The FPSCR's bits: status and enable numbers, the summaries, what a floating-point instruction
records, the trap condition, and what `<fpscr-to-cr>` does to the FPSCR. -/

namespace Sys2Proof.Machine

/-- The FPSCR status bit of an exception (60_exceptions.md R150, 10_state.md R15 to R24, R33 to R35). -/
def statusBit : Exc → Nat
  | .ox => 3
  | .ux => 4
  | .zx => 5
  | .xx => 6
  | .vxsnan => 7
  | .vxisi => 8
  | .vxidi => 9
  | .vxzdz => 10
  | .vximz => 11
  | .vxvc => 12
  | .vxsoft => 21
  | .vxsqrt => 22
  | .vxcvi => 23

/-- `enable(e)`: the FPSCR enable bit of an exception (60_exceptions.md R151, 10_state.md R36 to R40). -/
def enableBit : Exc → Nat
  | .ox => 25
  | .ux => 26
  | .zx => 27
  | .xx => 28
  | _ => 24

/-- Every exception, in the order of the status bits. -/
def allExc : List Exc :=
  [.ox, .ux, .zx, .xx, .vxsnan, .vxisi, .vxidi, .vxzdz, .vximz, .vxvc, .vxsoft, .vxsqrt, .vxcvi]

/-- Bits 21 and 22 exist only where HAS_VXSOFT_VXSQRT (10_state.md R33, R34). -/
def implemented (p : Params) : Exc → Bool
  | .vxsoft => p.hasVxsoftVxsqrt
  | .vxsqrt => p.hasVxsoftVxsqrt
  | _ => true

/-- The invalid causes (10_state.md R14). -/
def isInvalid : Exc → Bool
  | .ox => false
  | .ux => false
  | .zx => false
  | .xx => false
  | _ => true

/-- `EXC`: all exception status bits (40_fp_instructions.md section 0.1). -/
def excs (p : Params) : List Exc := allExc.filter (implemented p)

/-- `INV`: the implemented invalid causes (40_fp_instructions.md section 0.1). -/
def invalidCauses (p : Params) : List Exc := (excs p).filter isInvalid

/-! ## The summaries -/

/-- What bit 2 summarises (40_fp_instructions.md R104). -/
def invalidSummary (p : Params) (f : Word) : Bool :=
  (invalidCauses p).any fun e => regBit f (statusBit e)

/-- What bit 1 summarises, under each FEX_READING (40_fp_instructions.md R106). -/
def enableSummary (p : Params) (f : Word) : Bool :=
  match p.fexReading with
  | .sourceLiteral => [24, 25, 26, 27, 28].any fun i => regBit f i
  | .enabledExceptionOccurred => (excs p).any fun e => regBit f (statusBit e) && regBit f (enableBit e)

/-- Bits 1 and 2 recomputed from the others (40_fp_instructions.md R104, R106). -/
def recomputeSummaries (p : Params) (f : Word) : Word :=
  ofBits fun i => if i = 1 then enableSummary p f else if i = 2 then invalidSummary p f else regBit f i

/-! ## What the numerics function answers -/

/-- The classes that do not raise the signaling-NaN exception; `mtfsf`, the fifth, is an instruction of its
own (40_fp_instructions.md R107). -/
def exemptFromSnan : FpKind → Bool
  | .load => true
  | .store => true
  | .move => true
  | .select => true
  | _ => false

/-- The classes after which exactly one of FPSCR bits 16 to 19 is 1 (40_fp_instructions.md R109). -/
def isCompare (kind : FpKind) : Bool := kind = .compare || kind = .compareOrdered

/-- The comparison's outcome as FPSCR[16:19] (40_fp_instructions.md R109). -/
def cmpBits : CmpResult → BitVec 4
  | .less => 0b1000#4
  | .greater => 0b0100#4
  | .equal => 0b0010#4
  | .unordered => 0b0001#4

/-- The answer of `FpStatus`, held to the rules that constrain it (40_fp_instructions.md section 0.1): `ev` is
a subset of EXC; the signaling-NaN rule (R107); an ordered comparison with a NaN operand is an invalid
comparison (41_fpscr_to_cr.md R124, log 33); after a comparison exactly one of bits 16 to 19 (R109). What the
rules leave open stays as the free function gives it (log 8). `ev` is listed in the order of the bits. -/
def conformOut (p : Params) (kind : FpKind) (snanOperand nanOperand : Bool) (raw : FpRaw) : FpOut where
  ev := (excs p).filter fun e =>
    if e = .vxsnan then !exemptFromSnan kind && (snanOperand || raw.ev.contains e)
    else if e = .vxvc then (decide (kind = .compareOrdered) && nanOperand) || raw.ev.contains e
    else raw.ev.contains e
  fr := raw.fr
  fi := raw.fi
  cls := if isCompare kind then some (BitVec.ofBool raw.cmpClass ++ cmpBits raw.cmp) else raw.cls

/-- `FpStatus(i, ops, FPSCR)` for the next floating-point instruction of a state: the operand values are free,
and of the FPSCR only the rounding direction and the enables are read (40_fp_instructions.md section 0.1,
R110; log 7). -/
def fpOut (op : FpOp) (s : State) : FpOut :=
  let ops := Config.fpOperands s.fpSeq op
  conformOut s.params op.kind (ops.any Config.isSignalingNaN)
    (ops.any fun v => Config.isQuietNaN v || Config.isSignalingNaN v)
    (Config.fpStatus op ops (roundingDirection s.fpscr) (enableBits s.fpscr))

/-! ## Record -/

/-- The case R105 leaves open: exceptions occur, each already recorded, with bit 0 clear (93 U7). -/
def recursUnsummarised (f : Word) (ev : List Exc) : Bool :=
  !ev.isEmpty && !regBit f 0 && ev.all fun e => regBit f (statusBit e)

/-- The new bit 0 (40_fp_instructions.md R105): set when an exception occurs, else kept; `free` in the case of
93 U7 (log 9). -/
def anyExceptionBit (free : Bool) (f : Word) (ev : List Exc) : Bool :=
  if ev.isEmpty then regBit f 0 else if recursUnsummarised f ev then free else true

/-- Bit i after the events, before the summaries: bit 0 (R105), bits 13 and 14 (R108), bits 15 to 19 (R109),
the status bits set and sticky (R102, R103), every other bit as it was (R110). -/
def eventBit (free : Bool) (f : Word) (out : FpOut) (i : Nat) : Bool :=
  if i = 0 then anyExceptionBit free f out.ev
  else if i = 13 then out.fr.getD (regBit f 13)
  else if i = 14 then out.fi.getD (regBit f 14)
  else if 15 ≤ i ∧ i ≤ 19 then
    match out.cls with
    | some c => c.getMsbD (i - 15)
    | none => regBit f i
  else regBit f i || out.ev.any fun e => statusBit e == i

/-- `Record(F, out)` (40_fp_instructions.md section 2). -/
def record (p : Params) (free : Bool) (f : Word) (out : FpOut) : Word :=
  recomputeSummaries p (ofBits (eventBit free f out))

/-! ## Enabled exceptions -/

/-- The enables are valid: `MSR[20] | MSR[23] = 1` (10_state.md R44, 60_exceptions.md R152). -/
def enablesValid (s : State) : Bool := s.msr20 || s.msr23

/-- `Trap(F, out)`, F the FPSCR before the instruction (40_fp_instructions.md R111). -/
def trap (s : State) (out : FpOut) : Bool :=
  enablesValid s && out.ev.any fun e => regBit s.fpscr (enableBit e)

/-- The negation of the premise NoPendingEnabledException (60_exceptions.md R154). -/
def pendingEnabled (s : State) : Bool :=
  enablesValid s && (excs s.params).any fun e =>
    regBit s.fpscr (statusBit e) && regBit s.fpscr (enableBit e)

/-! ## Storing FPSCR bits in the Condition Register -/

/-- Bit i is bit 0 or an exception status bit, and lies in field s (41_fpscr_to_cr.md R121; an unimplemented
bit is no status bit, log 16). -/
def clearedByXfer (p : Params) (s i : Nat) : Bool :=
  i / 4 == s && (i == 0 || (excs p).any fun e => statusBit e == i)

/-- `XferEffect(FPSCR, s)` (41_fpscr_to_cr.md R121). -/
def xferFpscr (p : Params) (f : Word) (s : Nat) : Word :=
  match p.xferEffect with
  | .keep => f
  | .clearCopiedStatus => recomputeSummaries p (ofBits fun i => regBit f i && !clearedByXfer p s i)

end Sys2Proof.Machine
end

