-- ==== Sys2Proof/Machine/Ops.lean ====
section
/-! DEFINITION. The shared operations: the program text and its bytes, moving the pc, branching, and raising
the enabled exception. -/

namespace Sys2Proof.Machine

/-! ## Lists by rising address -/

/-- The entry at an address. -/
def entryAt {α : Type} : List (Nat × α) → Nat → Option α
  | [], _ => none
  | (k, v) :: rest, a => if a = k then some v else entryAt rest a

/-- The list with the entry at an address put in or replaced, addresses still rising. -/
def setEntry {α : Type} : List (Nat × α) → Nat → α → List (Nat × α)
  | [], a, x => [(a, x)]
  | (k, v) :: rest, a, x =>
    if a < k then (a, x) :: (k, v) :: rest
    else if a = k then (a, x) :: rest
    else (k, v) :: setEntry rest a x

/-- The list without an address. -/
def dropEntry {α : Type} (l : List (Nat × α)) (a : Nat) : List (Nat × α) := l.filter fun e => e.1 != a

/-- Addresses strictly rising, each at least `lo`. -/
def risingFrom {α : Type} : Nat → List (Nat × α) → Bool
  | _, [] => true
  | lo, (k, _) :: rest => decide (lo ≤ k) && risingFrom (k + 1) rest

/-! ## Memory and program text -/

/-- The canonical form of the bytes: strictly rising addresses of the 32-bit space (20_memory.md R70). An
unlisted address reads as nothing, so no entry can equal it. -/
def Memory.wf (m : Memory) : Bool := risingFrom 0 m && m.all fun c => decide (c.1 < 2 ^ 32)

/-- The canonical form of the text: strictly rising addresses of the 32-bit space, each a multiple of
INSTR_BYTES (20_memory.md R73, R75). -/
def Text.wf (t : Text) : Bool :=
  risingFrom 0 t && t.all fun c => decide (c.1 < 2 ^ 32 ∧ c.1 % 4 = 0)

/-- One byte; nothing where none is listed (20_memory.md R75). -/
def readByte (m : Memory) (a : Nat) : Option Byte := entryAt m a

/-- Writing one byte: only the loading of a program does so (20_memory.md R78). -/
def writeByte (m : Memory) (a : Nat) (b : Byte) : Memory := setEntry m a b

/-- Writing bytes at rising addresses. -/
def writeBytes (m : Memory) (a : Nat) : List Byte → Memory
  | [] => m
  | b :: rest => writeBytes (writeByte m a b) (a + 1) rest

/-- The INSTR_BYTES = 4 bytes at an address (20_memory.md R74). -/
def readInsnBytes (m : Memory) (a : Nat) : Option (List Byte) :=
  match readByte m a, readByte m (a + 1), readByte m (a + 2), readByte m (a + 3) with
  | some b0, some b1, some b2, some b3 => some [b0, b1, b2, b3]
  | _, _, _, _ => none

/-- The address holds a statement of the program, as text or as a word (20_memory.md R75). -/
def holdsStatement (s : State) (a : Word) : Bool :=
  (entryAt s.text a.toNat).isSome || (readInsnBytes s.mem a.toNat).isSome

/-! ## The pc -/

/-- `pc <- next` (10_state.md R53). -/
def advance (s : State) : State := s.withPc (nextPc s.pc)

/-- `pc <- a` for a taken branch: refused where `a` is misaligned (20_memory.md R73) or holds no statement and
is not END_ADDR (R75). -/
def branchTo (a : Word) (s : State) : Host.Outcome State Fault Refusal :=
  if aligned a then
    if holdsStatement s a || s.endAddr == some a then .next (s.withPc a)
    else .refused .targetOutsideProgram
  else .refused .misalignedTarget

/-- `if taken then pc <- a else pc <- next` (42_cond_branches.md R130, R142); nothing else is written (R143). -/
def branchIf (taken : Bool) (t : Target) (s : State) : Host.Outcome State Fault Refusal :=
  if taken then branchTo (branchTarget s.pc t) s else .next (advance s)

/-- A field branch: the field must be one BRANCH_FIELDS admits (30_encoding.md R83); `cond` is the condition on
the bits F0, F1, F2, F3 of the field (10_state.md R52). -/
def fieldBranchIf (cond : Bool → Bool → Bool → Bool → Bool) (k : Nat) (t : Target) (s : State) :
    Host.Outcome State Fault Refusal :=
  if admitsField s.params k then
    branchIf
      (cond (regBit s.cr (4 * k)) (regBit s.cr (4 * k + 1)) (regBit s.cr (4 * k + 2)) (regBit s.cr (4 * k + 3)))
      t s
  else .refused .notInSpec

/-- A bit branch: the operand is a bit number 0..31 (30_encoding.md R84). -/
def bitBranchIf (b : Nat) (t : Target) (s : State) : Host.Outcome State Fault Refusal :=
  if b < 32 then branchIf (regBit s.cr b) t s else .refused .notInSpec

/-! ## The exception -/

/-- `raise FloatingPointEnabledException(ev)` (60_exceptions.md R153): the machine enters the fault state,
carrying `ev`, the pc of the instruction and the state with the status recorded. There is no return (R158);
where the hardware goes is not in the source (log 11). -/
def raiseFpEnabled (ev : List Exc) (recorded : State) : Host.Outcome State Fault Refusal :=
  .fault (.floatingPointEnabledException ev recorded.pc recorded)

end Sys2Proof.Machine
end

