-- ==== Sys2Proof/Machine/Fetch.lean ====
section
/-! DEFINITION. What a step does before it executes: the checks on the launch premises, the end of the run,
and fetching the statement at the pc; and the loading of one word where the next fetch reads. -/

namespace Sys2Proof.Machine

/-- What a fetch answers: a statement of the text, the instruction of a word, or why there is none. -/
inductive Fetched
  | statement (i : Instr)
  | word (i : Instr)
  | stop (r : Refusal)
  deriving DecidableEq, Repr

/-- The refusal of a word that is no instruction of the model (30_encoding.md R90, 40_fp_instructions.md R113). -/
def refusalOf : Reject → Refusal
  | .notInSpec => .notInSpec
  | .notSpecified => .notSpecified
  | .truncated => .pcOutsideProgram

/-- The statement at an address: a statement of the text first (log 27), else the word its bytes hold
(20_memory.md R74, R75). -/
def statementAt (s : State) (a : Nat) : Fetched :=
  match entryAt s.text a with
  | some i => .statement i
  | none =>
    match readInsnBytes s.mem a with
    | some bytes =>
      match (decodeBytes bytes).1 with
      | .instr i => .word i
      | .reject r => .stop (refusalOf r)
    | none => .stop .pcOutsideProgram

/-- The instruction the next step executes. A pending enabled exception is refused (60_exceptions.md R154; log
12), END_ADDR ends the run (70_reset_and_hazards.md section 5; log 6), the pc must be aligned (20_memory.md
R73; log 26). -/
def fetch (s : State) : Fetched :=
  if pendingEnabled s then .stop .pendingEnabledException
  else if s.endAddr = some s.pc then .stop .programEnded
  else if aligned s.pc then statementAt s s.pc.toNat
  else .stop .misalignedPc

/-- A one-word program at the pc: the word's bytes stored there, big-endian, no statement of the text and not
END_ADDR at that address (log 1). -/
def placeWord (s : State) (w : Word) : State :=
  ((s.withMem (writeBytes s.mem s.pc.toNat (wordBytes w))).withText (dropEntry s.text s.pc.toNat)).withEndAddr
    (if s.endAddr = some s.pc then none else s.endAddr)

end Sys2Proof.Machine
end

