-- ==== Sys2Proof/Machine/Branches.lean ====
section
/-! DEFINITION. The conditional branches of Table 12-2 (42_cond_branches.md). F0 to F3 are the bits of the
field: less than, greater than, equal, unordered (10_state.md R52). -/

namespace Sys2Proof.Machine

/-- `bta b, a`: branch if CR[b] = 1 (42_cond_branches.md R131). -/
def execBta (b : Nat) (a : Word) (s : State) : Host.Outcome State Fault Refusal :=
  bitBranchIf b (.addr a) s

/-- `bt`, accepted as a synonym of `bta` (42_cond_branches.md R145). -/
def execBt (b : Nat) (t : Target) (s : State) : Host.Outcome State Fault Refusal :=
  bitBranchIf b t s

/-- `blt`: bit 0 of the field is 1 (42_cond_branches.md R132). -/
def execBlt (k : Nat) (t : Target) (s : State) : Host.Outcome State Fault Refusal :=
  fieldBranchIf (fun f0 _ _ _ => f0) k t s

/-- `ble`: bit 0 or bit 2 is 1 (42_cond_branches.md R133), or under the single-bit reading bit 1 is 0 (R144;
log 18). -/
def execBle (k : Nat) (t : Target) (s : State) : Host.Outcome State Fault Refusal :=
  fieldBranchIf
    (fun f0 f1 f2 _ =>
      match s.params.leGeReading with
      | .sourceLiteral => f0 || f2
      | .singleBit => !f1)
    k t s

/-- `beq`: bit 2 of the field is 1 (42_cond_branches.md R134). -/
def execBeq (k : Nat) (t : Target) (s : State) : Host.Outcome State Fault Refusal :=
  fieldBranchIf (fun _ _ f2 _ => f2) k t s

/-- `bge`: bit 1 or bit 2 is 1 (42_cond_branches.md R135), or under the single-bit reading bit 0 is 0 (R144;
log 18). -/
def execBge (k : Nat) (t : Target) (s : State) : Host.Outcome State Fault Refusal :=
  fieldBranchIf
    (fun f0 f1 f2 _ =>
      match s.params.leGeReading with
      | .sourceLiteral => f1 || f2
      | .singleBit => !f0)
    k t s

/-- `bgt`: bit 1 of the field is 1 (42_cond_branches.md R136). -/
def execBgt (k : Nat) (t : Target) (s : State) : Host.Outcome State Fault Refusal :=
  fieldBranchIf (fun _ f1 _ _ => f1) k t s

/-- `bnl`: bit 0 of the field is 0 (42_cond_branches.md R137). -/
def execBnl (k : Nat) (t : Target) (s : State) : Host.Outcome State Fault Refusal :=
  fieldBranchIf (fun f0 _ _ _ => !f0) k t s

/-- `bne`: bit 2 of the field is 0 (42_cond_branches.md R138). -/
def execBne (k : Nat) (t : Target) (s : State) : Host.Outcome State Fault Refusal :=
  fieldBranchIf (fun _ _ f2 _ => !f2) k t s

/-- `bng`: bit 1 of the field is 0 (42_cond_branches.md R139). -/
def execBng (k : Nat) (t : Target) (s : State) : Host.Outcome State Fault Refusal :=
  fieldBranchIf (fun _ f1 _ _ => !f1) k t s

/-- `bun`: bit 3 of the field is 1 (42_cond_branches.md R140). -/
def execBun (k : Nat) (t : Target) (s : State) : Host.Outcome State Fault Refusal :=
  fieldBranchIf (fun _ _ _ f3 => f3) k t s

/-- `bnu`: bit 3 of the field is 0 (42_cond_branches.md R141). -/
def execBnu (k : Nat) (t : Target) (s : State) : Host.Outcome State Fault Refusal :=
  fieldBranchIf (fun _ _ _ f3 => !f3) k t s

end Sys2Proof.Machine
end

