-- ==== Sys2Proof/Machine/FloatingPoint.lean ====
section
/-! DEFINITION. `<fpinstr>`, `<fpinstr>.` and `mtfsf` (40_fp_instructions.md). -/

namespace Sys2Proof.Machine

/-- The state with an instruction's status recorded: the FPSCR (40_fp_instructions.md R100) and, for a dot form,
`CR[4:7] <- FPSCR[0:3]` of the FPSCR as just updated (R101, R114). The pc is still at the instruction. -/
def recordStatus (dot : Bool) (out : FpOut) (s : State) : State :=
  let f := record s.params (Config.freeBit0 s.fpSeq) s.fpscr out
  { s with
    fpscr := f
    cr := if dot then copyField s.cr 1 f 0 else s.cr
    fpSeq := s.fpSeq + 1 }

/-- A floating-point instruction with the answer of the numerics function: record, decide the trap from the
old enables, go on or raise (40_fp_instructions.md R100, R101, R111, R114). -/
def completeFp (dot : Bool) (out : FpOut) (s : State) : Host.Outcome State Fault Refusal :=
  if trap s out then raiseFpEnabled out.ev (recordStatus dot out s)
  else .next (advance (recordStatus dot out s))

/-- `<fpinstr>` (40_fp_instructions.md R100). -/
def execFpinstr (op : FpOp) (s : State) : Host.Outcome State Fault Refusal :=
  completeFp false (fpOut op s) s

/-- `<fpinstr>.` (40_fp_instructions.md R101). -/
def execFpinstrDot (op : FpOp) (s : State) : Host.Outcome State Fault Refusal :=
  completeFp true (fpOut op s) s

/-- `mtfsf` is `refuse(not_specified)` (40_fp_instructions.md R112; log 14). -/
def execMtfsf (_fm : BitVec 8) (_frB : BitVec 5) (_rc : Bool) (_s : State) :
    Host.Outcome State Fault Refusal :=
  .refused .notSpecified

end Sys2Proof.Machine
end

