-- ==== Sys2Proof/Machine/FpscrToCr.lean ====
section
/-! DEFINITION. `<fpscr-to-cr> f, s` (41_fpscr_to_cr.md). -/

namespace Sys2Proof.Machine

/-- `CR[4f : 4f+3] <- FPSCR[4s : 4s+3]`, then `XferEffect` on the FPSCR (41_fpscr_to_cr.md R121). A destination
other than CR2 to CR4 is refused (R122); a source other than 0..7 is no operand of the statement (log 16). -/
def execFpscrToCr (f s : Nat) (st : State) : Host.Outcome State Fault Refusal :=
  if 2 ≤ f ∧ f ≤ 4 then
    if s < 8 then
      .next (advance
        ((st.withCr (copyField st.cr f st.fpscr s)).withFpscr (xferFpscr st.params st.fpscr s)))
    else .refused .notInSpec
  else .refused .fieldOutsideSource

end Sys2Proof.Machine
end

