-- ==== Sys2Proof/Machine/Dispatch.lean ====
section
/-! DEFINITION. One arm per instruction. -/

namespace Sys2Proof.Machine

def exec (i : Instr) (s : State) : Host.Outcome State Fault Refusal :=
  match i with
  | .fpinstr op => Sys2Proof.Machine.execFpinstr op s
  | .fpinstrDot op => Sys2Proof.Machine.execFpinstrDot op s
  | .mtfsf fm frB rc => Sys2Proof.Machine.execMtfsf fm frB rc s
  | .fpscrToCr f src => Sys2Proof.Machine.execFpscrToCr f src s
  | .bta b a => Sys2Proof.Machine.execBta b a s
  | .bt b t => Sys2Proof.Machine.execBt b t s
  | .blt k t => Sys2Proof.Machine.execBlt k t s
  | .ble k t => Sys2Proof.Machine.execBle k t s
  | .beq k t => Sys2Proof.Machine.execBeq k t s
  | .bge k t => Sys2Proof.Machine.execBge k t s
  | .bgt k t => Sys2Proof.Machine.execBgt k t s
  | .bnl k t => Sys2Proof.Machine.execBnl k t s
  | .bne k t => Sys2Proof.Machine.execBne k t s
  | .bng k t => Sys2Proof.Machine.execBng k t s
  | .bun k t => Sys2Proof.Machine.execBun k t s
  | .bnu k t => Sys2Proof.Machine.execBnu k t s

end Sys2Proof.Machine
end

