-- ==== Sys2Proof/Machine/Words.lean ====
section
/-! DEFINITION. What a binary word does beside the instruction it decodes to: a comparison's word also stores its
result in the field it names, and a word shared by a field branch and `bt` runs as the row that is admitted. -/

namespace Sys2Proof.Machine

/-- The row that runs of a word shared with `bt` (30_encoding.md R88): the field branch where BRANCH_FIELDS admits
its field (R83), else `bt` on the same bit, which admits every bit (R84; DESIGN CHOICE, log 20). -/
def admittedRow (p : Params) : Instr → Instr
  | .blt k t => if admitsField p k then .blt k t else .bt (4 * k) t
  | .bgt k t => if admitsField p k then .bgt k t else .bt (4 * k + 1) t
  | .beq k t => if admitsField p k then .beq k t else .bt (4 * k + 2) t
  | .bun k t => if admitsField p k then .bun k t else .bt (4 * k + 3) t
  | .fpinstr op => .fpinstr op
  | .fpinstrDot op => .fpinstrDot op
  | .mtfsf fm frB rc => .mtfsf fm frB rc
  | .fpscrToCr f src => .fpscrToCr f src
  | .bta b a => .bta b a
  | .bt b t => .bt b t
  | .ble k t => .ble k t
  | .bge k t => .bge k t
  | .bnl k t => .bnl k t
  | .bne k t => .bne k t
  | .bng k t => .bng k t
  | .bnu k t => .bnu k t

/-- `CR[4f : 4f+3] <- FPSCR[16:19]`: the comparison's result in the field its word names (41_fpscr_to_cr.md R124).
The FPSCR keeps it: field 4 holds no status bit for XferEffect to clear. -/
def storeCompare (f : Nat) (s : State) : State := s.withCr (copyField s.cr f s.fpscr 4)

/-- The comparison's result stored as well, in the next state or in the state the fault carries (log 33). -/
def alsoStoreCompare (f : Nat) : Host.Outcome State Fault Refusal → Host.Outcome State Fault Refusal
  | .next t => .next (storeCompare f t)
  | .fault (.floatingPointEnabledException ev pc recorded) =>
    .fault (.floatingPointEnabledException ev pc (storeCompare f recorded))
  | .refused r => .refused r

/-- The instruction of a word. "The real compare instructions do both in one step" (41_fpscr_to_cr.md R124): the
`<fpinstr>` and `<fpscr-to-cr> f, 4`, whose destination is 2, 3 or 4 and which is refused elsewhere (R122), so
that CR0 and CR5 to CR7 have no writer and CR1 none but the dot forms (10_state.md R47, R57, R59; log 33). -/
def execWord (i : Instr) (s : State) : Host.Outcome State Fault Refusal :=
  match compareField i with
  | some f => if 2 ≤ f ∧ f ≤ 4 then alsoStoreCompare f (exec i s) else .refused .fieldOutsideSource
  | none => exec (admittedRow s.params i) s

end Sys2Proof.Machine
end

