-- ==== Sys2Proof/Safety.lean ====
section
/-! DEFINITION. The launch premises the spec names (70_reset_and_hazards.md R170), the invariant of a run, and
what a safe and a finished run are. -/

namespace Sys2Proof.Machine

/-- `SummaryConsistent`: bits 1 and 2 equal their formulas (70_reset_and_hazards.md R171). -/
abbrev SummaryConsistent (s : State) : Prop :=
  regBit s.fpscr 1 = enableSummary s.params s.fpscr ∧ regBit s.fpscr 2 = invalidSummary s.params s.fpscr

/-- `ReservedClear` (70_reset_and_hazards.md R170, 93 U1 to U3). -/
abbrev ReservedClear (s : State) : Prop :=
  regBit s.fpscr 20 = false ∧ regBit s.fpscr 29 = false ∧
    (s.params.hasVxsoftVxsqrt = false → regBit s.fpscr 21 = false ∧ regBit s.fpscr 22 = false)

/-- `PcInProgram` (70_reset_and_hazards.md R170). -/
abbrev PcInProgram (s : State) : Prop := aligned s.pc = true ∧ holdsStatement s s.pc = true

/-- `NoPendingEnabledException` (60_exceptions.md R154). -/
abbrev NoPendingEnabledException (s : State) : Prop :=
  ∀ e ∈ excs s.params,
    ¬ (regBit s.fpscr (statusBit e) = true ∧ regBit s.fpscr (enableBit e) = true ∧ enablesValid s = true)

/-- What holds of every state of a run that its launch state meets: the text and its bytes in canonical form,
the pc aligned, no pending enabled exception, the summary bits consistent. -/
structure RunInvariant (s : State) : Prop where
  mem_wf : Memory.wf s.mem = true
  text_wf : Text.wf s.text = true
  pc_aligned : aligned s.pc = true
  no_pending : NoPendingEnabledException s
  summaries : SummaryConsistent s

/-- The run has ended: the pc is END_ADDR, with no fault (70_reset_and_hazards.md section 5). -/
abbrev Final (s : State) : Prop := s.endAddr = some s.pc

/-- No step within n reaches the fault: what a claim about a program must show (60_exceptions.md R153). -/
def SafeFor (n : Nat) (s : State) : Prop := ∀ k ≤ n, ∀ r, Sys2Proof.core.run k s ≠ .fault r

/-! ## Terms the statements use -/

/-- The floating-point instruction without and with its dot (30_encoding.md R80). -/
def fpForm (dot : Bool) (op : FpOp) : Instr := if dot then .fpinstrDot op else .fpinstr op

/-- The state an instruction leaves: the next state, or the state the fault carries (60_exceptions.md R153). -/
def stateLeft : Host.Outcome State Fault Refusal → Option State
  | .next t => some t
  | .fault (.floatingPointEnabledException _ _ recorded) => some recorded
  | .refused _ => none

/-- The eleven branches of Table 12-2 and the synonym `bt`. -/
def isBranch : Instr → Bool
  | .fpinstr _ => false
  | .fpinstrDot _ => false
  | .mtfsf _ _ _ => false
  | .fpscrToCr _ _ => false
  | .bta _ _ => true
  | .bt _ _ => true
  | .blt _ _ => true
  | .ble _ _ => true
  | .beq _ _ => true
  | .bge _ _ => true
  | .bgt _ _ => true
  | .bnl _ _ => true
  | .bne _ _ => true
  | .bng _ _ => true
  | .bun _ _ => true
  | .bnu _ _ => true

/-- An address a taken branch may go to: aligned (20_memory.md R73), and a statement's or END_ADDR (R75). -/
abbrev TargetAdmitted (s : State) (a : Word) : Prop :=
  aligned a = true ∧ (holdsStatement s a = true ∨ s.endAddr = some a)

/-- `if cond then pc <- target else pc <- next`, and nothing else written (42_cond_branches.md R130, R142, R143). -/
def BranchesWhen (i : Instr) (s : State) (t : Target) (cond : Bool) : Prop :=
  (cond = true → TargetAdmitted s (branchTarget s.pc t) → exec i s = .next (s.withPc (branchTarget s.pc t))) ∧
    (cond = false → exec i s = .next (s.withPc (nextPc s.pc)))

/-- The condition and target of a branch whose operands are admitted: Table 12-2 in one place, with both
readings of `ble` and `bge` (42_cond_branches.md section 0, R144). -/
def branchTest (s : State) : Instr → Option (Bool × Target)
  | .bta b a => if b < 32 then some (regBit s.cr b, .addr a) else none
  | .bt b t => if b < 32 then some (regBit s.cr b, t) else none
  | .blt k t => if admitsField s.params k then some (regBit s.cr (4 * k), t) else none
  | .bgt k t => if admitsField s.params k then some (regBit s.cr (4 * k + 1), t) else none
  | .beq k t => if admitsField s.params k then some (regBit s.cr (4 * k + 2), t) else none
  | .bun k t => if admitsField s.params k then some (regBit s.cr (4 * k + 3), t) else none
  | .bnl k t => if admitsField s.params k then some (!regBit s.cr (4 * k), t) else none
  | .bng k t => if admitsField s.params k then some (!regBit s.cr (4 * k + 1), t) else none
  | .bne k t => if admitsField s.params k then some (!regBit s.cr (4 * k + 2), t) else none
  | .bnu k t => if admitsField s.params k then some (!regBit s.cr (4 * k + 3), t) else none
  | .ble k t =>
    if admitsField s.params k then
      match s.params.leGeReading with
      | .sourceLiteral => some (regBit s.cr (4 * k) || regBit s.cr (4 * k + 2), t)
      | .singleBit => some (!regBit s.cr (4 * k + 1), t)
    else none
  | .bge k t =>
    if admitsField s.params k then
      match s.params.leGeReading with
      | .sourceLiteral => some (regBit s.cr (4 * k + 1) || regBit s.cr (4 * k + 2), t)
      | .singleBit => some (!regBit s.cr (4 * k), t)
    else none
  | .fpinstr _ => none
  | .fpinstrDot _ => none
  | .mtfsf _ _ _ => none
  | .fpscrToCr _ _ => none

/-- What no instruction writes: the MSR bits (10_state.md R58), the program, END_ADDR, the parameters, and
every byte of memory (20_memory.md R78). -/
def SameProgram (s t : State) : Prop :=
  t.msr20 = s.msr20 ∧ t.msr23 = s.msr23 ∧ t.endAddr = s.endAddr ∧ t.text = s.text ∧ t.params = s.params ∧
    ∀ a, readByte t.mem a = readByte s.mem a

/-- The state with another reading of `ble` and `bge` (42_cond_branches.md R144). -/
def withReading (s : State) (r : LeGeReading) : State := { s with params := { s.params with leGeReading := r } }

/-- The field F0 F1 F2 F3 as a number, F0 the most significant (10_state.md R52). -/
def fieldValue (x : Word) (k : Nat) : Nat :=
  8 * (regBit x (4 * k)).toNat + 4 * (regBit x (4 * k + 1)).toNat + 2 * (regBit x (4 * k + 2)).toNat +
    (regBit x (4 * k + 3)).toNat

end Sys2Proof.Machine
end

