-- ==== Sys2Proof/WellFormed.lean ====
section
/-! DEFINITION. Which statements have operands in the ranges the spec admits. The machine does not rely on
this check: a statement outside it is refused by its meaning, under the name the spec gives. -/

namespace Sys2Proof

/-- An *address* operand: a multiple of INSTR_BYTES (30_encoding.md R85, 20_memory.md R73). A displacement
counts words, so every one is. -/
def Target.wellFormed : Target → Bool
  | .addr a => a.toNat % 4 == 0
  | .disp _ => true

/-- Operand ranges: f in {2, 3, 4} (41_fpscr_to_cr.md R122), s in 0..7 (R121), *bit* in 0..31
(30_encoding.md R84), *field* in 0..7 (R83), *address* aligned (R85). -/
def Instr.wellFormed : Instr → Bool
  | .fpinstr _ => true
  | .fpinstrDot _ => true
  | .mtfsf _ _ _ => true
  | .fpscrToCr f s => decide (2 ≤ f ∧ f ≤ 4 ∧ s < 8)
  | .bta b a => decide (b < 32) && (Target.addr a).wellFormed
  | .bt b t => decide (b < 32) && t.wellFormed
  | .blt k t => decide (k < 8) && t.wellFormed
  | .ble k t => decide (k < 8) && t.wellFormed
  | .beq k t => decide (k < 8) && t.wellFormed
  | .bge k t => decide (k < 8) && t.wellFormed
  | .bgt k t => decide (k < 8) && t.wellFormed
  | .bnl k t => decide (k < 8) && t.wellFormed
  | .bne k t => decide (k < 8) && t.wellFormed
  | .bng k t => decide (k < 8) && t.wellFormed
  | .bun k t => decide (k < 8) && t.wellFormed
  | .bnu k t => decide (k < 8) && t.wellFormed

end Sys2Proof
end

