-- ==== Sys2Proof/Certificates/Slice0/Obligations.lean ====
section
/-! DEFINITION. The statements for the provers. A docstring that says "spec's decision" or "log n" names a
clause that rests on a choice, not on the source's words. -/

open Sys2Proof Sys2Proof.Machine

/-! ## Registers and reset -/

/-- A register's value is the sum of `X[i] * 2^(31-i)`: bit 0 is the most significant (00_scope.md R3, the
spec's decision D1, log 2). -/
def Obligations.RegisterValueIsSumOfNumberedBits : Prop :=
  ∀ x : Word, x.toNat = ∑ i ∈ Finset.range 32, (regBit x i).toNat * 2 ^ (31 - i)

/-- The values reset leaves are the model's choice (log 4, 5, 6, 7): the spec leaves each unspecified
(10_state.md R56). -/
def Obligations.ResetLeavesTheLoggedValues : Prop :=
  (∀ i, regBit State.reset.fpscr i = false) ∧ (∀ i, regBit State.reset.cr i = false) ∧
    State.reset.msr20 = false ∧ State.reset.msr23 = false ∧ State.reset.pc = 0#32 ∧
    State.reset.endAddr = none ∧ (∀ a, readByte State.reset.mem a = none) ∧
    (∀ a, entryAt State.reset.text a = none) ∧ (∀ k < 8, admitsField State.reset.params k = true) ∧
    State.reset.params = ⟨.sourceLiteral, .sourceLiteral, .keep, .zeroToSeven, false⟩ ∧ State.reset.fpSeq = 0

/-! ## Encoding (general knowledge in the spec's own words, log 20 and 21; that the bits no operand of an mcrfs or
mtfsf word names must be 0 is the model's choice, log 32) -/

/-- Words of 95_test_vectors.md section 2.7 and of its programs, one or more of each family. -/
def Obligations.DecodesTheWordsOfTheSpec : Prop :=
  decode 0x41880008#32 = .instr (.blt 2 (.disp 2#14)) ∧
    decode 0x41890008#32 = .instr (.bgt 2 (.disp 2#14)) ∧
    decode 0x418E000C#32 = .instr (.beq 3 (.disp 3#14)) ∧
    decode 0x41930010#32 = .instr (.bun 4 (.disp 4#14)) ∧
    decode 0x40880008#32 = .instr (.bnl 2 (.disp 2#14)) ∧
    decode 0x40890008#32 = .instr (.bng 2 (.disp 2#14)) ∧
    decode 0x408AFFFC#32 = .instr (.bne 2 (.disp 0x3FFF#14)) ∧
    decode 0x40930008#32 = .instr (.bnu 4 (.disp 2#14)) ∧
    decode 0x4187100E#32 = .instr (.bta 7 0x100C#32) ∧
    decode 0xFC22182A#32 = .instr (.fpinstr ⟨.other, 0x7E110C15#31⟩) ∧
    decode 0xFC22182B#32 = .instr (.fpinstrDot ⟨.other, 0x7E110C15#31⟩) ∧
    decode 0xFD100080#32 = .instr (.fpscrToCr 2 4) ∧
    decode 0xFDFE0D8E#32 = .instr (.mtfsf 0xFF#8 1#5 false)

/-- The words of every instruction decode to it, and those of `ble` and `bge` to `bng` and `bnl`, which share them
(30_encoding.md R88). That a word of `bt` decodes to the field branch that shares it is the model's choice (log
20). -/
def Obligations.DecodeOfEncodeIsTheCanonicalInstruction : Prop :=
  ∀ i w, encode i = some w → decode w = .instr i.canonical

/-- No bit of a decoded word is dropped but the prediction hint, instruction bit 10 of a B-form word. Of an mcrfs
or mtfsf word this rests on the model's choice that the bits outside the operand fields must be 0 and a word with
one set is refused (log 32); of a floating-point word likewise (log 21). -/
def Obligations.EncodeOfDecodeRestoresTheWord : Prop :=
  ∀ w i, decode w = .instr i →
    encode i = some (if insnBits w 0 5 = 16#6 then w &&& 0xFFDFFFFF#32 else w)

/-- Every operand value the encoding admits has a word; a floating-point word of a row with a record bit has its
plain and its dot form. -/
def Obligations.EveryAdmittedOperandHasAWord : Prop :=
  (∀ k < 8, ∀ bd : BitVec 14,
    (encode (.blt k (.disp bd))).isSome ∧ (encode (.bgt k (.disp bd))).isSome ∧
      (encode (.beq k (.disp bd))).isSome ∧ (encode (.bun k (.disp bd))).isSome ∧
      (encode (.bnl k (.disp bd))).isSome ∧ (encode (.bng k (.disp bd))).isSome ∧
      (encode (.bne k (.disp bd))).isSome ∧ (encode (.bnu k (.disp bd))).isSome ∧
      (encode (.bge k (.disp bd))).isSome ∧ (encode (.ble k (.disp bd))).isSome) ∧
    (∀ b < 32, ∀ bd : BitVec 14,
      (encode (.bt b (.disp bd))).isSome ∧ (encode (.bta b (absoluteTarget bd))).isSome) ∧
    (∀ f < 8, ∀ s < 8, (encode (.fpscrToCr f s)).isSome) ∧
    (∀ fm frB rc, (encode (.mtfsf fm frB rc)).isSome) ∧
    (∀ w r, fpRowOf w = some r → (encode (.fpinstr ⟨r.kind, insnBits w 0 30⟩)).isSome ∧
      (r.dot = true → (encode (.fpinstrDot ⟨r.kind, insnBits w 0 30⟩)).isSome))

/-- The hint `y` of a conditional branch does not change the instruction (30_encoding.md R90). -/
def Obligations.HintBitDoesNotChangeTheInstruction : Prop :=
  ∀ w : Word, insnBits w 0 5 = 16#6 → decode (w ^^^ 0x00200000#32) = decode w

/-- A branch with the link bit, or an absolute branch on a clear bit, is in no row (30_encoding.md R90,
42_cond_branches.md R146). -/
def Obligations.BranchFormsOutsideTheTableAreRejected : Prop :=
  ∀ w : Word, insnBits w 0 5 = 16#6 →
    (insnBits w 31 31 = 1#1 ∨ insnBits w 6 9 = 0b0010#4 ∧ insnBits w 30 30 = 1#1 ∨
      insnBits w 6 9 ≠ 0b0110#4 ∧ insnBits w 6 9 ≠ 0b0010#4) →
    decode w = .reject .notInSpec

/-- The operands a word can carry are in their ranges, but for the destination field of `<fpscr-to-cr>`, which
its meaning refuses outside {2, 3, 4} (30_encoding.md R83 to R85, 41_fpscr_to_cr.md R122). -/
def Obligations.DecodedOperandsAreInRange : Prop :=
  ∀ w i, decode w = .instr i →
    i.wellFormed = true ∨ ∃ f src, i = .fpscrToCr f src ∧ f < 8 ∧ src < 8 ∧ (f < 2 ∨ 4 < f)

/-! ## The step -/

/-- A step runs the text's statement at the pc (20_memory.md R74, R77), whatever bytes stand there (the model's
choice, log 27). -/
def Obligations.StepRunsTheStatementAtThePc : Prop :=
  ∀ s i, NoPendingEnabledException s → s.endAddr ≠ some s.pc → aligned s.pc = true →
    entryAt s.text s.pc.toNat = some i → step s = exec i s

/-- A step runs the instruction its bytes at the pc decode to (20_memory.md R72, R74), the word read big-endian
(the spec's decision D19, log 23). Around `exec`: a word whose field branch BRANCH_FIELDS does not admit runs as
`bt` on the same bit (30_encoding.md R88, log 20), and a comparison's word stores its result in CR2, CR3 or CR4
and is refused for another field (41_fpscr_to_cr.md R122, R124, log 33). -/
def Obligations.StepRunsTheDecodedInstruction : Prop :=
  (∀ s i bytes, NoPendingEnabledException s → s.endAddr ≠ some s.pc → aligned s.pc = true →
    entryAt s.text s.pc.toNat = none → readInsnBytes s.mem s.pc.toNat = some bytes →
    (decodeBytes bytes).1 = .instr i → step s = execWord i s) ∧
  (∀ m a b0 b1 b2 b3, readByte m a = some b0 → readByte m (a + 1) = some b1 → readByte m (a + 2) = some b2 →
    readByte m (a + 3) = some b3 → readInsnBytes m a = some [b0, b1, b2, b3]) ∧
  (∀ b0 b1 b2 b3 rest, decodeBytes (b0 :: b1 :: b2 :: b3 :: rest) = (decode (b0 ++ b1 ++ b2 ++ b3), rest)) ∧
  (∀ i s, compareField i = none →
    (∀ k t, i ∈ [.blt k t, .bgt k t, .beq k t, .bun k t] → admitsField s.params k = true) →
    execWord i s = exec i s) ∧
  (∀ s k t, admitsField s.params k = false →
    execWord (.blt k t) s = exec (.bt (4 * k) t) s ∧ execWord (.bgt k t) s = exec (.bt (4 * k + 1) t) s ∧
      execWord (.beq k t) s = exec (.bt (4 * k + 2) t) s ∧
      execWord (.bun k t) s = exec (.bt (4 * k + 3) t) s) ∧
  ∀ i s f, compareField i = some f → execWord i s =
    if 2 ≤ f ∧ f ≤ 4 then alsoStoreCompare f (exec i s) else .refused .fieldOutsideSource

/-- A word of no row is refused as `not_in_spec`, an FPSCR-manipulating one as `not_specified`
(30_encoding.md R90, 40_fp_instructions.md R113; the spec's decision D21). The latter are the words of primary
opcode 63 with the extended opcode of mffs, mtfsfi, mtfsb0 or mtfsb1 (93 GK19, log 22). -/
def Obligations.StepRefusesWordsOfNoRow : Prop :=
  (∀ w : Word, decode w = .reject .notSpecified ↔
    insnBits w 0 5 = 63#6 ∧ (insnBits w 21 30).toNat ∈ [583, 134, 70, 38]) ∧
  ∀ s bytes, NoPendingEnabledException s → s.endAddr ≠ some s.pc → aligned s.pc = true →
    entryAt s.text s.pc.toNat = none → readInsnBytes s.mem s.pc.toNat = some bytes →
    ((decodeBytes bytes).1 = .reject .notInSpec → step s = .refused .notInSpec) ∧
      ((decodeBytes bytes).1 = .reject .notSpecified → step s = .refused .notSpecified)

/-- A pc that is misaligned (no multiple of INSTR_BYTES = 4), or at no statement, is refused by name (20_memory.md
R73, R75; the spec's decision D19, log 26). -/
def Obligations.StepRefusesAPcOutsideTheProgram : Prop :=
  (∀ a, aligned a = true ↔ a.toNat % 4 = 0) ∧
  ∀ s, NoPendingEnabledException s → s.endAddr ≠ some s.pc →
    (aligned s.pc = false → step s = .refused .misalignedPc) ∧
      (aligned s.pc = true → holdsStatement s s.pc = false → step s = .refused .pcOutsideProgram)

/-- At END_ADDR the run has ended (70_reset_and_hazards.md section 5; log 6). -/
def Obligations.StepEndsAtEndAddr : Prop :=
  ∀ s, NoPendingEnabledException s → Final s → step s = .refused .programEnded

/-- A pending enabled exception is refused, and no instruction that does not fault makes one
(60_exceptions.md R154). -/
def Obligations.PendingEnabledExceptionIsRefusedAndNeverMade : Prop :=
  (∀ s, ¬ NoPendingEnabledException s → step s = .refused .pendingEnabledException) ∧
    ∀ i s t, NoPendingEnabledException s → exec i s = .next t → NoPendingEnabledException t

/-! ## Floating-point instructions: what is recorded

`fpOut op s` is the answer of the uninterpreted `FpStatus`. Each statement holds of the next state and of the
state the fault carries alike. -/

/-- Exception status bits are set by their exception and never cleared; unimplemented bits 21 and 22 stay, and bit
7 does in the classes exempt from the signaling-NaN exception (40_fp_instructions.md R102, R103, R107; sticky by
the spec's decision D4, log 10). -/
def Obligations.StatusBitsAreSetAndSticky : Prop :=
  (∀ dot op s, ∃ t, stateLeft (exec (fpForm dot op) s) = some t ∧
    ∀ e, regBit t.fpscr (statusBit e) =
      (regBit s.fpscr (statusBit e) || (implemented s.params e && (fpOut op s).ev.contains e))) ∧
  ∀ dot op s t, exemptFromSnan op.kind = true → stateLeft (exec (fpForm dot op) s) = some t →
    regBit t.fpscr 7 = regBit s.fpscr 7

/-- Bit 2 is 1 exactly when an implemented invalid-cause bit is 1 (40_fp_instructions.md R104). -/
def Obligations.InvalidSummaryIsRecomputed : Prop :=
  ∀ dot op s, ∃ t, stateLeft (exec (fpForm dot op) s) = some t ∧
    (regBit t.fpscr 2 = true ↔
      (∃ i ∈ [7, 8, 9, 10, 11, 12, 23], regBit t.fpscr i = true) ∨
        s.params.hasVxsoftVxsqrt = true ∧ (regBit t.fpscr 21 = true ∨ regBit t.fpscr 22 = true))

/-- Bit 0 is kept when no exception occurs and set when one does, but for the case that is free
(40_fp_instructions.md R105, 93 U7; log 9 and 10). -/
def Obligations.AnyExceptionBitIsSetOrKept : Prop :=
  ∀ dot op s, ∃ t, stateLeft (exec (fpForm dot op) s) = some t ∧
    regBit t.fpscr 0 =
      if (fpOut op s).ev = [] then regBit s.fpscr 0
      else if regBit s.fpscr 0 = false ∧ ∀ e ∈ (fpOut op s).ev, regBit s.fpscr (statusBit e) = true then
        Config.freeBit0 s.fpSeq
      else true

/-- Bit 1 under each FEX_READING (40_fp_instructions.md R106, the spec's parameter D5). -/
def Obligations.EnableSummaryIsRecomputed : Prop :=
  ∀ dot op s, ∃ t, stateLeft (exec (fpForm dot op) s) = some t ∧
    (s.params.fexReading = .sourceLiteral →
      (regBit t.fpscr 1 = true ↔ ∃ i, 24 ≤ i ∧ i ≤ 28 ∧ regBit t.fpscr i = true)) ∧
    (s.params.fexReading = .enabledExceptionOccurred →
      (regBit t.fpscr 1 = true ↔
        ∃ e, implemented s.params e = true ∧ regBit t.fpscr (statusBit e) = true ∧
          regBit t.fpscr (enableBit e) = true))

/-- Bits 13, 14 and 15 to 19 take the answer's values or stay (40_fp_instructions.md R108, R109; decision D4). -/
def Obligations.ResultBitsAreOverwritten : Prop :=
  ∀ dot op s, ∃ t, stateLeft (exec (fpForm dot op) s) = some t ∧
    regBit t.fpscr 13 = (fpOut op s).fr.getD (regBit s.fpscr 13) ∧
    regBit t.fpscr 14 = (fpOut op s).fi.getD (regBit s.fpscr 14) ∧
    ∀ j < 5, regBit t.fpscr (15 + j) =
      match (fpOut op s).cls with
      | some c => c.getMsbD j
      | none => regBit s.fpscr (15 + j)

/-- After a comparison exactly one of bits 16 to 19 is 1 (40_fp_instructions.md R109, the spec's reading; log 8),
and an ordered one with a NaN operand records an invalid comparison. The words of the two real compares also store
bits 16 to 19 in the field they name, and write nothing else beside their `<fpinstr>` (41_fpscr_to_cr.md R124,
93 GK16, general knowledge; log 33); a field other than CR2 to CR4 is refused (R122, the spec's decision D18). -/
def Obligations.ComparisonLeavesOneOfFourBits : Prop :=
  (∀ dot op s, op.kind = .compare ∨ op.kind = .compareOrdered → ∃ t, stateLeft (exec (fpForm dot op) s) = some t ∧
    ∃ j < 4, ∀ i < 4, regBit t.fpscr (16 + i) = decide (i = j)) ∧
  (∀ p snan raw, .vxvc ∈ (conformOut p .compareOrdered snan true raw).ev) ∧
  (∀ w : Word, w &&& 0xFC6007FF#32 = 0xFC000000#32 →
    decode w = .instr (.fpinstr ⟨.compare, insnBits w 0 30⟩)) ∧
  (∀ w : Word, w &&& 0xFC6007FF#32 = 0xFC000040#32 →
    decode w = .instr (.fpinstr ⟨.compareOrdered, insnBits w 0 30⟩)) ∧
  (∀ (w : Word) kind, kind = .compare ∨ kind = .compareOrdered →
    compareField (.fpinstr ⟨kind, insnBits w 0 30⟩) = some (insnBits w 6 8).toNat) ∧
  ∀ i s f, compareField i = some f →
    (2 ≤ f → f ≤ 4 → ∃ t u, stateLeft (exec i s) = some u ∧
      stateLeft (execWord i s) = some t ∧ t = u.withCr t.cr ∧
      (∀ j < 4, regBit t.cr (4 * f + j) = regBit u.fpscr (16 + j)) ∧
      ∀ j, j < 4 * f ∨ 4 * f + 4 ≤ j → regBit t.cr j = regBit u.cr j) ∧
    (f < 2 ∨ 4 < f → execWord i s = .refused .fieldOutsideSource)

/-- A load, store, move or select never raises the signaling-NaN exception; every other operation with a
signaling-NaN operand does; nor does `mtfsf` raise anything (40_fp_instructions.md R107). -/
def Obligations.SignalingNanExclusion : Prop :=
  (∀ kind, exemptFromSnan kind = true ↔ kind ∈ [.load, .store, .move, .select]) ∧
    (∀ p kind snan nan raw, exemptFromSnan kind = true → .vxsnan ∉ (conformOut p kind snan nan raw).ev) ∧
    (∀ p kind nan raw, exemptFromSnan kind = false → .vxsnan ∈ (conformOut p kind true nan raw).ev) ∧
    (∀ op s, ∃ raw, fpOut op s =
      conformOut s.params op.kind ((Config.fpOperands s.fpSeq op).any Config.isSignalingNaN)
        ((Config.fpOperands s.fpSeq op).any fun v => Config.isQuietNaN v || Config.isSignalingNaN v) raw) ∧
    ∀ fm frB rc s r, exec (.mtfsf fm frB rc) s ≠ .fault r

/-- `out.ev` holds implemented exceptions only (40_fp_instructions.md section 0.1; log 8). -/
def Obligations.OnlyImplementedExceptionsOccur : Prop :=
  ∀ op s e, e ∈ (fpOut op s).ev →
    3 ≤ statusBit e ∧ (s.params.hasVxsoftVxsqrt = false → statusBit e ≠ 21 ∧ statusBit e ≠ 22)

/-- `FpStatus` reads of the FPSCR only the rounding direction and the enables (40_fp_instructions.md section
0.1, the spec's decision D6; log 7). -/
def Obligations.NumericsReadOnlyRoundingAndEnables : Prop :=
  ∀ op s f, (∀ i, (24 ≤ i ∧ i ≤ 28) ∨ i = 30 ∨ i = 31 → regBit f i = regBit s.fpscr i) →
    ∀ cr pc, fpOut op (((s.withFpscr f).withCr cr).withPc pc) = fpOut op s

/-- The plain and the dot form leave the same FPSCR, and stop alike (40_fp_instructions.md R101 corner case b). -/
def Obligations.DotChangesNothingInTheFpscr : Prop :=
  ∀ op s t u, stateLeft (exec (.fpinstr op) s) = some t → stateLeft (exec (.fpinstrDot op) s) = some u →
    t.fpscr = u.fpscr ∧ t.pc = u.pc

/-- A dot form copies FPSCR bits 0 to 3, as just recorded, into CR bits 4 to 7 (10_state.md R48 to R51). That
0 is copied as well as 1, and that the copy follows the update, are the spec's readings D14 and D22 (log 15). -/
def Obligations.DotFormCopiesStatusIntoCr1 : Prop :=
  ∀ op s, ∃ t, stateLeft (exec (.fpinstrDot op) s) = some t ∧
    regBit t.cr 4 = regBit t.fpscr 0 ∧ regBit t.cr 5 = regBit t.fpscr 1 ∧
    regBit t.cr 6 = regBit t.fpscr 2 ∧ regBit t.cr 7 = regBit t.fpscr 3

/-- A floating-point instruction writes no Condition Register field but CR1, the plain form none
(40_fp_instructions.md R115). -/
def Obligations.FloatingPointWritesNoFieldButCr1 : Prop :=
  (∀ op s, ∃ t, stateLeft (exec (.fpinstr op) s) = some t ∧ t.cr = s.cr) ∧
    ∀ op s, ∃ t, stateLeft (exec (.fpinstrDot op) s) = some t ∧
      ∀ i, i < 4 ∨ 8 ≤ i → regBit t.cr i = regBit s.cr i

/-- The rest of the frame: control and reserved bits (40_fp_instructions.md R110), the MSR and the program. -/
def Obligations.FloatingPointKeepsControlAndProgram : Prop :=
  ∀ dot op s, ∃ t, stateLeft (exec (fpForm dot op) s) = some t ∧ SameProgram s t ∧
    ∀ i, i = 20 ∨ 24 ≤ i → regBit t.fpscr i = regBit s.fpscr i

/-! ## Floating-point instructions: going on and trapping -/

/-- With no enable valid, or none set, `<fpinstr>` goes on to the next instruction (40_fp_instructions.md R100,
R111; 60_exceptions.md R151, R152). -/
def Obligations.PlainFormCompletes : Prop :=
  ∀ op s, (s.msr20 = false ∧ s.msr23 = false ∨ ∀ i, 24 ≤ i → i ≤ 28 → regBit s.fpscr i = false) →
    ∃ t, exec (.fpinstr op) s = .next t ∧ t.pc = s.pc + 4#32 ∧ t.cr = s.cr ∧
      t.fpscr = record s.params (Config.freeBit0 s.fpSeq) s.fpscr (fpOut op s) ∧
      t.fpSeq = s.fpSeq + 1 ∧ SameProgram s t

/-- The same of `<fpinstr>.` (40_fp_instructions.md R101). -/
def Obligations.DotFormCompletes : Prop :=
  ∀ op s, (s.msr20 = false ∧ s.msr23 = false ∨ ∀ i, 24 ≤ i → i ≤ 28 → regBit s.fpscr i = false) →
    ∃ t, exec (.fpinstrDot op) s = .next t ∧ t.pc = s.pc + 4#32 ∧
      (∀ j < 4, regBit t.cr (4 + j) = regBit t.fpscr j) ∧
      (∀ i, i < 4 ∨ 8 ≤ i → regBit t.cr i = regBit s.cr i) ∧
      t.fpscr = record s.params (Config.freeBit0 s.fpSeq) s.fpscr (fpOut op s) ∧
      t.fpSeq = s.fpSeq + 1 ∧ SameProgram s t

/-- Whatever the numerics function answers: the enabled exception is raised exactly when an enable is set for
an exception that occurs and MSR bit 20 or 23 is set; it carries all of `ev`, the pc of the instruction and
the recorded state (40_fp_instructions.md R111; 60_exceptions.md R152, R153, R156; decision D7, log 11). The
status and enable bit of each exception are those of 60_exceptions.md R150, R151. -/
def Obligations.EnabledExceptionFaultsAfterRecording : Prop :=
  (∀ op s, exec (.fpinstr op) s = completeFp false (fpOut op s) s) ∧
    (∀ op s, exec (.fpinstrDot op) s = completeFp true (fpOut op s) s) ∧
    [Exc.ox, .ux, .zx, .xx, .vxsnan, .vxisi, .vxidi, .vxzdz, .vximz, .vxvc, .vxsoft, .vxsqrt, .vxcvi].map
      (fun e => (statusBit e, enableBit e)) =
        [(3, 25), (4, 26), (5, 27), (6, 28), (7, 24), (8, 24), (9, 24), (10, 24), (11, 24), (12, 24), (21, 24),
          (22, 24), (23, 24)] ∧
    ∀ dot out s,
      ((s.msr20 = true ∨ s.msr23 = true) → (∃ e ∈ out.ev, regBit s.fpscr (enableBit e) = true) →
        completeFp dot out s =
          .fault (.floatingPointEnabledException out.ev s.pc (recordStatus dot out s))) ∧
      ((s.msr20 = false ∧ s.msr23 = false ∨ ∀ e ∈ out.ev, regBit s.fpscr (enableBit e) = false) →
        completeFp dot out s = .next ((recordStatus dot out s).withPc (s.pc + 4#32)))

/-- With MSR bits 20 and 23 clear no instruction faults, and only a floating-point one ever can
(60_exceptions.md R152, R157; decision D8, log 13). -/
def Obligations.NothingElseFaults : Prop :=
  ∀ i s r, (s.msr20 = false ∧ s.msr23 = false ∨ ∀ dot op, i ≠ fpForm dot op) → exec i s ≠ .fault r

/-- `mtfsf` is refused (40_fp_instructions.md R112; decision D21, log 14). -/
def Obligations.MtfsfIsNotSpecified : Prop :=
  ∀ fm frB rc s, exec (.mtfsf fm frB rc) s = .refused .notSpecified

/-! ## Storing FPSCR bits in the Condition Register -/

/-- `<fpscr-to-cr> f, s` copies one FPSCR field into CR2, CR3 or CR4, bit to bit, and writes no other bit of
the Condition Register (41_fpscr_to_cr.md R120, R121; the spec's reading D18, log 16). -/
def Obligations.FpscrToCrCopiesOneField : Prop :=
  ∀ f src s, 2 ≤ f → f ≤ 4 → src < 8 → ∃ t, exec (.fpscrToCr f src) s = .next t ∧
    (∀ j < 4, regBit t.cr (4 * f + j) = regBit s.fpscr (4 * src + j)) ∧
    (∀ i, i < 4 * f ∨ 4 * f + 4 ≤ i → regBit t.cr i = regBit s.cr i) ∧
    t.pc = s.pc + 4#32 ∧ t.fpSeq = s.fpSeq ∧ SameProgram s t

/-- The FPSCR after `<fpscr-to-cr>` under each XferEffect (41_fpscr_to_cr.md R121, 93 U8; log 16). -/
def Obligations.FpscrAfterFpscrToCr : Prop :=
  ∀ f src s t, exec (.fpscrToCr f src) s = .next t →
    (s.params.xferEffect = .keep → t.fpscr = s.fpscr) ∧
    (s.params.xferEffect = .clearCopiedStatus →
      (∀ i, i ≠ 1 → i ≠ 2 → regBit t.fpscr i =
        (regBit s.fpscr i &&
          !decide (4 * src ≤ i ∧ i < 4 * src + 4 ∧
            (i = 0 ∨ ∃ e ∈ excs s.params, statusBit e = i)))) ∧
      SummaryConsistent t)

/-- Another destination field is refused (41_fpscr_to_cr.md R122; decision D18), and so is a source field above 7
(R121 admits 0 to 7; that it is refused as notInSpec is the model's choice, log 16). -/
def Obligations.FpscrToCrRefusesOtherFields : Prop :=
  (∀ f src s, f < 2 ∨ 4 < f → exec (.fpscrToCr f src) s = .refused .fieldOutsideSource) ∧
    ∀ f src s, 2 ≤ f → f ≤ 4 → 8 ≤ src → exec (.fpscrToCr f src) s = .refused .notInSpec

/-- Storing FPSCR field 4 and branching on it tests FPSCR bits 16 to 19 with nothing between
(41_fpscr_to_cr.md R123, 20_memory.md R77). What the field holds is R121 (the spec's reading D18, log 16), the
admitted target decision D19 and the next instruction D3 (log 19). -/
def Obligations.StoredFieldIsWhatTheBranchTests : Prop :=
  ∀ f s t a, exec (.fpscrToCr f 4) s = .next t → admitsField s.params f = true → TargetAdmitted s a →
    exec (.blt f (.addr a)) t = .next (t.withPc (if regBit s.fpscr 16 then a else nextPc t.pc)) ∧
    exec (.bgt f (.addr a)) t = .next (t.withPc (if regBit s.fpscr 17 then a else nextPc t.pc)) ∧
    exec (.beq f (.addr a)) t = .next (t.withPc (if regBit s.fpscr 18 then a else nextPc t.pc)) ∧
    exec (.bun f (.addr a)) t = .next (t.withPc (if regBit s.fpscr 19 then a else nextPc t.pc))

/-- After a dot form, `bta 4+j` tests the FPSCR bit j just recorded (42_cond_branches.md R131). That CR1 holds 0 as
well as 1 of the updated FPSCR is the spec's readings D14 and D22 (log 15), the admitted target decision D19, the
next instruction D3, and that nothing but the pc is written D24 (log 19). -/
def Obligations.DotFormThenBitBranchTestsStatus : Prop :=
  ∀ op s t j a, exec (.fpinstrDot op) s = .next t → j < 4 → TargetAdmitted s a →
    exec (.bta (4 + j) a) t = .next (t.withPc (if regBit t.fpscr j then a else nextPc t.pc))

/-! ## Branches

In every statement here: a taken branch needs an admitted target (the spec's decision D19, log 19), the next
instruction is at pc + 4 (decision D3, log 3 and 19), and fields other than 2 to 4 are admitted by the
parameter BRANCH_FIELDS (decision D13, log 17); that nothing else is written is decision D24 (log 19), and a
relative target is general knowledge (log 20). -/

/-- Branches on a bit of the field being 1 (42_cond_branches.md R132, R136, R134, R140). -/
def Obligations.BranchesOnASetFieldBit : Prop :=
  ∀ s k t, admitsField s.params k = true →
    BranchesWhen (.blt k t) s t (regBit s.cr (4 * k)) ∧
    BranchesWhen (.bgt k t) s t (regBit s.cr (4 * k + 1)) ∧
    BranchesWhen (.beq k t) s t (regBit s.cr (4 * k + 2)) ∧
    BranchesWhen (.bun k t) s t (regBit s.cr (4 * k + 3))

/-- Branches on a bit of the field being 0 (42_cond_branches.md R137, R139, R138, R141). -/
def Obligations.BranchesOnAClearFieldBit : Prop :=
  ∀ s k t, admitsField s.params k = true →
    BranchesWhen (.bnl k t) s t (!regBit s.cr (4 * k)) ∧
    BranchesWhen (.bng k t) s t (!regBit s.cr (4 * k + 1)) ∧
    BranchesWhen (.bne k t) s t (!regBit s.cr (4 * k + 2)) ∧
    BranchesWhen (.bnu k t) s t (!regBit s.cr (4 * k + 3))

/-- `bta` (42_cond_branches.md R131). -/
def Obligations.BranchesOnASetBit : Prop :=
  ∀ s b a, b < 32 → BranchesWhen (.bta b a) s (.addr a) (regBit s.cr b)

/-- `bt` is the same test, with a target of either form (42_cond_branches.md R145; the spec's decision D12), and
its word runs as it under either BRANCH_FIELDS, whichever row the decoder answers (30_encoding.md R84, R88; log
20). -/
def Obligations.SynonymBranchesOnASetBit : Prop :=
  ∀ s b, b < 32 → (∀ t, BranchesWhen (.bt b t) s t (regBit s.cr b)) ∧
    (∀ a, exec (.bt b (.addr a)) s = exec (.bta b a) s) ∧
    ∀ bd w i, encode (.bt b (.disp bd)) = some w → decode w = .instr i →
      execWord i s = exec (.bt b (.disp bd)) s

/-- `ble` and `bge` as the source describes them (42_cond_branches.md R133, R135): one value of the parameter
LE_GE_READING (decision D11, log 18). -/
def Obligations.LessOrEqualTestsTwoBits : Prop :=
  ∀ s k t, admitsField s.params k = true → s.params.leGeReading = .sourceLiteral →
    BranchesWhen (.ble k t) s t (regBit s.cr (4 * k) || regBit s.cr (4 * k + 2)) ∧
    BranchesWhen (.bge k t) s t (regBit s.cr (4 * k + 1) || regBit s.cr (4 * k + 2))

/-- Under the single-bit reading `ble` is `bng` and `bge` is `bnl` (42_cond_branches.md R144, general knowledge). -/
def Obligations.SingleBitReadingIsBngAndBnl : Prop :=
  ∀ s k t, s.params.leGeReading = .singleBit →
    exec (.ble k t) s = exec (.bng k t) s ∧ exec (.bge k t) s = exec (.bnl k t) s

/-- On field values other than the eight R144 lists for each, the two readings agree (42_cond_branches.md R144). -/
def Obligations.ReadingsAgreeOffTheListedValues : Prop :=
  ∀ s k t u,
    (fieldValue s.cr k ∉ [0, 1, 6, 7, 12, 13, 14, 15] →
      exec (.ble k t) (withReading s .sourceLiteral) = .next u →
      exec (.ble k t) (withReading s .singleBit) = .next (withReading u .singleBit)) ∧
    (fieldValue s.cr k ∉ [0, 1, 10, 11, 12, 13, 14, 15] →
      exec (.bge k t) (withReading s .sourceLiteral) = .next u →
      exec (.bge k t) (withReading s .singleBit) = .next (withReading u .singleBit))

/-- On the listed values one reading takes the branch and the other does not, as the two columns say
(42_cond_branches.md R144). -/
def Obligations.ReadingsDifferOnTheListedValues : Prop :=
  ∀ s k t, admitsField s.params k = true →
    (fieldValue s.cr k ∈ [6, 7, 12, 13, 14, 15] →
      BranchesWhen (.ble k t) (withReading s .sourceLiteral) t true ∧
        BranchesWhen (.ble k t) (withReading s .singleBit) t false) ∧
    (fieldValue s.cr k ∈ [10, 11, 12, 13, 14, 15] →
      BranchesWhen (.bge k t) (withReading s .sourceLiteral) t true ∧
        BranchesWhen (.bge k t) (withReading s .singleBit) t false) ∧
    (fieldValue s.cr k ∈ [0, 1] → ∀ i ∈ [Instr.ble k t, .bge k t],
      BranchesWhen i (withReading s .sourceLiteral) t false ∧
        BranchesWhen i (withReading s .singleBit) t true)

/-- A taken branch to a bad target is refused by name, and an untaken one is not (20_memory.md R73, R75). -/
def Obligations.BadTargetsAreRefusedWhenTaken : Prop :=
  ∀ i s t,
    (branchTest s i = some (true, t) → aligned (branchTarget s.pc t) = false →
      exec i s = .refused .misalignedTarget) ∧
    (branchTest s i = some (true, t) → aligned (branchTarget s.pc t) = true →
      holdsStatement s (branchTarget s.pc t) = false → s.endAddr ≠ some (branchTarget s.pc t) →
      exec i s = .refused .targetOutsideProgram) ∧
    (branchTest s i = some (false, t) → exec i s = .next (s.withPc (nextPc s.pc)))

/-- A field or bit number outside the admitted ones is refused (30_encoding.md R83, R84; decision D13). -/
def Obligations.OperandsOutOfRangeAreRefused : Prop :=
  (∀ s k t, admitsField s.params k = false →
    ∀ i ∈ [Instr.blt k t, .ble k t, .beq k t, .bge k t, .bgt k t, .bnl k t, .bne k t, .bng k t, .bun k t,
      .bnu k t], exec i s = .refused .notInSpec) ∧
    (∀ s b t, 32 ≤ b → exec (.bt b t) s = .refused .notInSpec) ∧
    (∀ s b a, 32 ≤ b → exec (.bta b a) s = .refused .notInSpec) ∧
    ∀ (s : State) k, admitsField s.params k = true ↔
      (s.params.branchFields = .zeroToSeven ∧ k < 8) ∨
        (s.params.branchFields = .twoToFour ∧ (k = 2 ∨ k = 3 ∨ k = 4))

/-- A branch writes the pc and nothing else, and goes to its target or to the next instruction
(42_cond_branches.md R143, decision D24): the address itself (30_encoding.md R85), or the pc and the sign-extended
word displacement (R87, general knowledge, log 20); pc + 4 (decision D3, log 3 and 19). -/
def Obligations.BranchWritesOnlyThePc : Prop :=
  ∀ i s u, isBranch i = true → exec i s = .next u →
    u = s.withPc u.pc ∧ ∃ c t, branchTest s i = some (c, t) ∧
      u.pc = if c then
          match t with
          | .addr a => a
          | .disp bd => s.pc + (bd ++ 0#2).signExtend 32
        else s.pc + 4#32

/-- A branch never reads the FPSCR, nor the MSR bits (42_cond_branches.md R130, 10_state.md R43). -/
def Obligations.BranchDoesNotReadTheFpscr : Prop :=
  ∀ i s u f m n, isBranch i = true → exec i s = .next u →
    exec i { s with fpscr := f, msr20 := m, msr23 := n } = .next { u with fpscr := f, msr20 := m, msr23 := n }

/-- `bta 4k+j` is the field branch on bit j of field k (42_cond_branches.md R131, corner case). -/
def Obligations.BitBranchIsTheFieldBranchOnItsBit : Prop :=
  ∀ s k a, admitsField s.params k = true →
    exec (.bta (4 * k) a) s = exec (.blt k (.addr a)) s ∧
    exec (.bta (4 * k + 1) a) s = exec (.bgt k (.addr a)) s ∧
    exec (.bta (4 * k + 2) a) s = exec (.beq k (.addr a)) s ∧
    exec (.bta (4 * k + 3) a) s = exec (.bun k (.addr a)) s

/-- After a comparison's one-hot field, which branches are taken (42_cond_branches.md section 6): `branchTest`
under the source's reading. -/
def Obligations.OneHotFieldDecidesTheBranches : Prop :=
  ∀ s k t, admitsField s.params k = true → s.params.leGeReading = .sourceLiteral →
    ∀ row ∈ [(8, [Instr.blt k t, .ble k t, .bne k t, .bng k t, .bnu k t],
          [Instr.beq k t, .bge k t, .bgt k t, .bnl k t, .bun k t]),
        (4, [.bge k t, .bgt k t, .bnl k t, .bne k t, .bnu k t],
          [.blt k t, .ble k t, .beq k t, .bng k t, .bun k t]),
        (2, [.ble k t, .beq k t, .bge k t, .bnl k t, .bng k t, .bnu k t],
          [.blt k t, .bgt k t, .bne k t, .bun k t]),
        (1, [.bnl k t, .bne k t, .bng k t, .bun k t],
          [.blt k t, .ble k t, .beq k t, .bge k t, .bgt k t, .bnu k t])],
      fieldValue s.cr k = row.1 →
        (∀ i ∈ row.2.1, BranchesWhen i s t true) ∧ ∀ i ∈ row.2.2, BranchesWhen i s t false

/-! ## The whole machine -/

/-- No instruction writes the MSR bits, the program, its bytes, END_ADDR or a parameter (10_state.md R58,
20_memory.md R78; log 1, 4, 13). -/
def Obligations.NoInstructionWritesMsrOrProgram : Prop :=
  ∀ i s t, exec i s = .next t → SameProgram s t

/-- The control bits of the FPSCR never change (40_fp_instructions.md R113), nor do the reserved bits 20 and 29: no
rule writes them, and they keep what the launch state holds (93 U1, U2; the model's choice, log 24). -/
def Obligations.ControlBitsNeverChange : Prop :=
  ∀ i s t, exec i s = .next t → ∀ j, j = 20 ∨ 24 ≤ j → regBit t.fpscr j = regBit s.fpscr j

/-- Under XferEffect `keep` the exception status bits only ever go from 0 to 1 (40_fp_instructions.md R113). -/
def Obligations.StatusBitsOnlyRise : Prop :=
  ∀ i s t e, s.params.xferEffect = .keep → exec i s = .next t → regBit s.fpscr (statusBit e) = true →
    regBit t.fpscr (statusBit e) = true

/-- The writers of the Condition Register are dot forms, CR1 only, and `<fpscr-to-cr>`, one of CR2 to CR4; no
instruction writes CR0 or CR5 to CR7; a field is written from the FPSCR; and of all instructions only the branches
read the register (10_state.md R47, R57, R59; 70_reset_and_hazards.md R172). Every step keeps to the same, a
comparison's word storing in one of CR2 to CR4 (log 33). That CR1 takes 0 as well as 1 of the updated FPSCR is the
spec's readings D14 and D22 (log 15), that a field is copied bit to bit D18 (log 16), that no instruction writes
CR0 and CR5 to CR7 D13. -/
def Obligations.WritersOfTheConditionRegister : Prop :=
  (∀ s t, step s = .next t →
    (∀ j, j < 4 ∨ 20 ≤ j → regBit t.cr j = regBit s.cr j) ∧
    (∀ j, 4 ≤ j → j < 8 → regBit t.cr j ≠ regBit s.cr j →
      ∃ op, fetch s = .statement (.fpinstrDot op) ∨ fetch s = .word (.fpinstrDot op)) ∧
    ∀ j, 8 ≤ j → j < 20 → regBit t.cr j ≠ regBit s.cr j →
      (∃ src, fetch s = .statement (.fpscrToCr (j / 4) src) ∨ fetch s = .word (.fpscrToCr (j / 4) src)) ∨
        ∃ i, fetch s = .word i ∧ compareField i = some (j / 4)) ∧
  ∀ i s t, exec i s = .next t →
    (∀ j, j < 4 ∨ 20 ≤ j → regBit t.cr j = regBit s.cr j) ∧
    (∀ j, 4 ≤ j → j < 8 → regBit t.cr j ≠ regBit s.cr j → ∃ op, i = .fpinstrDot op) ∧
    (∀ j, 8 ≤ j → j < 20 → regBit t.cr j ≠ regBit s.cr j → ∃ src, i = .fpscrToCr (j / 4) src) ∧
    (∀ op, i = .fpinstrDot op → ∀ j < 4, regBit t.cr (4 + j) = regBit t.fpscr j) ∧
    (∀ f src, i = .fpscrToCr f src → ∀ j < 4, regBit t.cr (4 * f + j) = regBit s.fpscr (4 * src + j)) ∧
    (isBranch i = false → ∀ c, ∃ u, exec i (s.withCr c) = .next u ∧ u = t.withCr u.cr)

/-- Every floating-point instruction leaves bits 1 and 2 equal to their formulas, and every instruction keeps
them so (70_reset_and_hazards.md R171). -/
def Obligations.SummariesAreConsistentFromTheFirstFloatingPoint : Prop :=
  (∀ dot op s, ∃ t, stateLeft (exec (fpForm dot op) s) = some t ∧ SummaryConsistent t) ∧
    ∀ i s t, SummaryConsistent s → exec i s = .next t → SummaryConsistent t

/-- Every step keeps the invariant: canonical program, aligned pc, no pending enabled exception, consistent
summaries. -/
def Obligations.StepKeepsTheInvariant : Prop := ∀ s t, RunInvariant s → step s = .next t → RunInvariant t

/-- With MSR bits 20 and 23 clear no run of any length reaches the enabled-exception fault: the enables are not
valid for its whole length (10_state.md R44, R58; 60_exceptions.md R152; decision D8, log 13). -/
def Obligations.RunsWithMsrClearNeverFault : Prop :=
  ∀ n s, s.msr20 = false → s.msr23 = false → SafeFor n s

/-- The reset state (the model's choice of values, log 5) meets the invariant. -/
def Obligations.ResetMeetsTheInvariant : Prop := RunInvariant State.reset
end

