-- ==== Sys2Proof/Laws/Bits.lean ====
section
/-! SUPPORT. The bits of a register, of a field copy, of the recomputed summaries and of Record. -/

namespace Sys2Proof.Machine

theorem getMsbD_leadingBits (f : Nat → Bool) : ∀ n i, i < n → (leadingBits f n).getMsbD i = f i := by
  intro n
  induction n with
  | zero => intro i h; omega
  | succ n ih =>
    intro i h
    rw [leadingBits, BitVec.getMsbD_concat]
    split
    · next h' => exact ih i h'
    · next h' =>
      have : i = n := by omega
      subst this; simp

@[simp] theorem regBit_ofBits (f : Nat → Bool) {i : Nat} (h : i < 32) : regBit (ofBits f) i = f i :=
  getMsbD_leadingBits f 32 i h

theorem regBit_of_ge (x : Word) {i : Nat} (h : 32 ≤ i) : regBit x i = false := by
  simp [regBit, BitVec.getMsbD, Nat.not_lt.mpr h]

/-- Registers with the same bits are equal. -/
theorem eq_of_regBit {x y : Word} (h : ∀ i < 32, regBit x i = regBit y i) : x = y :=
  BitVec.eq_of_getMsbD_eq h

/-! ## Fields -/

theorem regBit_copyField (x : Word) (k : Nat) (y : Word) (s : Nat) {i : Nat} (h : i < 32) :
    regBit (copyField x k y s) i =
      if 4 * k ≤ i ∧ i < 4 * k + 4 then regBit y (4 * s + (i - 4 * k)) else regBit x i :=
  regBit_ofBits _ h

theorem regBit_copyField_inside (x : Word) (y : Word) (s : Nat) {k j : Nat} (hk : k < 8) (hj : j < 4) :
    regBit (copyField x k y s) (4 * k + j) = regBit y (4 * s + j) := by
  rw [regBit_copyField _ _ _ _ (by omega), if_pos (by omega)]
  congr 1; omega

theorem regBit_copyField_outside (x : Word) (y : Word) (s : Nat) {k i : Nat} (h : i < 4 * k ∨ 4 * k + 4 ≤ i) :
    regBit (copyField x k y s) i = regBit x i := by
  by_cases hi : i < 32
  · rw [regBit_copyField _ _ _ _ hi, if_neg (by omega)]
  · rw [regBit_of_ge _ (by omega), regBit_of_ge _ (by omega)]

/-! ## Status and enable numbers -/

theorem statusBit_lt (e : Exc) : statusBit e < 32 := by cases e <;> decide

theorem enableBit_range (e : Exc) : 24 ≤ enableBit e ∧ enableBit e ≤ 28 := by cases e <;> decide

/-- A status bit is none of the summaries, result bits, reserved or control bits. -/
theorem statusBit_range (e : Exc) :
    (3 ≤ statusBit e ∧ statusBit e ≤ 12) ∨ (21 ≤ statusBit e ∧ statusBit e ≤ 23) := by
  cases e <;> decide

theorem statusBit_inj {e e' : Exc} (h : statusBit e = statusBit e') : e = e' := by
  revert h; cases e <;> cases e' <;> decide

theorem mem_excs {p : Params} {e : Exc} : e ∈ excs p ↔ implemented p e = true := by
  cases e <;> simp [excs, allExc, implemented]

theorem mem_invalidCauses {p : Params} {e : Exc} :
    e ∈ invalidCauses p ↔ implemented p e = true ∧ isInvalid e = true := by
  simp [invalidCauses, mem_excs]

/-! ## The summaries -/

/-- The summaries read neither bit 1 nor bit 2. -/
theorem enableSummary_congr (p : Params) {f g : Word} (h : ∀ i < 32, i ≠ 1 → i ≠ 2 → regBit f i = regBit g i) :
    enableSummary p f = enableSummary p g := by
  have hs : ∀ e, regBit f (statusBit e) = regBit g (statusBit e) := fun e =>
    h _ (statusBit_lt e) (by have := statusBit_range e; omega) (by have := statusBit_range e; omega)
  have he : ∀ e, regBit f (enableBit e) = regBit g (enableBit e) := fun e =>
    h _ (by have := enableBit_range e; omega) (by have := enableBit_range e; omega)
      (by have := enableBit_range e; omega)
  unfold enableSummary
  cases p.fexReading
  · simp [h 24, h 25, h 26, h 27, h 28]
  · simp only [hs, he]

theorem invalidSummary_congr (p : Params) {f g : Word} (h : ∀ i < 32, i ≠ 1 → i ≠ 2 → regBit f i = regBit g i) :
    invalidSummary p f = invalidSummary p g := by
  have hs : ∀ e, regBit f (statusBit e) = regBit g (statusBit e) := fun e =>
    h _ (statusBit_lt e) (by have := statusBit_range e; omega) (by have := statusBit_range e; omega)
  simp only [invalidSummary, hs]

theorem regBit_recompute (p : Params) (f : Word) {i : Nat} (h : i < 32) :
    regBit (recomputeSummaries p f) i =
      if i = 1 then enableSummary p f else if i = 2 then invalidSummary p f else regBit f i :=
  regBit_ofBits _ h

theorem regBit_recompute_other (p : Params) (f : Word) {i : Nat} (h1 : i ≠ 1) (h2 : i ≠ 2) :
    regBit (recomputeSummaries p f) i = regBit f i := by
  by_cases h : i < 32
  · rw [regBit_recompute p f h, if_neg h1, if_neg h2]
  · rw [regBit_of_ge _ (by omega), regBit_of_ge _ (by omega)]

/-- Recomputing makes bits 1 and 2 equal their formulas on the result. -/
theorem recompute_consistent (p : Params) (f : Word) :
    regBit (recomputeSummaries p f) 1 = enableSummary p (recomputeSummaries p f) ∧
      regBit (recomputeSummaries p f) 2 = invalidSummary p (recomputeSummaries p f) := by
  have h : ∀ i < 32, i ≠ 1 → i ≠ 2 → regBit (recomputeSummaries p f) i = regBit f i :=
    fun i _ h1 h2 => regBit_recompute_other p f h1 h2
  rw [enableSummary_congr p h, invalidSummary_congr p h, regBit_recompute p f (by decide),
    regBit_recompute p f (by decide)]
  simp

/-! ## Record -/

theorem regBit_record (p : Params) (free : Bool) (f : Word) (out : FpOut) {i : Nat} (h : i < 32)
    (h1 : i ≠ 1) (h2 : i ≠ 2) : regBit (record p free f out) i = eventBit free f out i := by
  rw [record, regBit_recompute_other p _ h1 h2, regBit_ofBits _ h]

/-- A status bit after Record: set by its exception, else as it was (R102, R103). -/
theorem regBit_record_status (p : Params) (free : Bool) (f : Word) (out : FpOut) (e : Exc) :
    regBit (record p free f out) (statusBit e) = (regBit f (statusBit e) || out.ev.contains e) := by
  have hr := statusBit_range e
  rw [regBit_record p free f out (statusBit_lt e) (by omega) (by omega), eventBit, if_neg (by omega),
    if_neg (by omega), if_neg (by omega), if_neg (by omega)]
  congr 1
  rw [Bool.eq_iff_iff, List.any_eq_true, List.contains_iff_mem]
  constructor
  · rintro ⟨x, hx, hxe⟩
    rwa [← statusBit_inj (by simpa using hxe : statusBit x = statusBit e)]
  · intro h; exact ⟨e, h, by simp⟩

/-- Bits 20 and 24 to 31 are as they were (R110). -/
theorem regBit_record_control (p : Params) (free : Bool) (f : Word) (out : FpOut) {i : Nat}
    (h : i = 20 ∨ 24 ≤ i) : regBit (record p free f out) i = regBit f i := by
  by_cases hi : i < 32
  · rw [regBit_record p free f out hi (by omega) (by omega), eventBit, if_neg (by omega),
      if_neg (by omega), if_neg (by omega), if_neg (by omega)]
    have : (out.ev.any fun e => statusBit e == i) = false := by
      rw [List.any_eq_false]
      intro x _
      have := statusBit_range x
      simp; omega
    simp [this]
  · rw [regBit_of_ge _ (by omega), regBit_of_ge _ (by omega)]

theorem regBit_record_enable (p : Params) (free : Bool) (f : Word) (out : FpOut) (e : Exc) :
    regBit (record p free f out) (enableBit e) = regBit f (enableBit e) :=
  regBit_record_control p free f out (.inr (enableBit_range e).1)

theorem record_consistent (p : Params) (free : Bool) (f : Word) (out : FpOut) :
    regBit (record p free f out) 1 = enableSummary p (record p free f out) ∧
      regBit (record p free f out) 2 = invalidSummary p (record p free f out) :=
  recompute_consistent p _

/-! ## The FPSCR after `<fpscr-to-cr>` -/

/-- Bits other than 1 and 2 after `<fpscr-to-cr>`: kept, or cleared where the clearing effect clears them. -/
theorem regBit_xferFpscr (p : Params) (f : Word) (s : Nat) {i : Nat} (h : i < 32) (h1 : i ≠ 1) (h2 : i ≠ 2) :
    regBit (xferFpscr p f s) i =
      (regBit f i && !(decide (p.xferEffect = .clearCopiedStatus) && clearedByXfer p s i)) := by
  cases hx : p.xferEffect
  · simp [xferFpscr, hx]
  · simp only [xferFpscr, hx]
    rw [regBit_recompute_other p _ h1 h2, regBit_ofBits _ h]; simp

theorem clearedByXfer_control (p : Params) (s : Nat) {i : Nat} (h : 13 ≤ i ∧ i ≤ 20 ∨ 24 ≤ i) :
    clearedByXfer p s i = false := by
  have : ((excs p).any fun e => statusBit e == i) = false := by
    rw [List.any_eq_false]
    intro x _
    have := statusBit_range x
    simp; omega
  have h0 : i ≠ 0 := by omega
  simp [clearedByXfer, this, h0]

/-- `<fpscr-to-cr>` sets no status bit. -/
theorem regBit_of_xferFpscr_status {p : Params} {f : Word} {s : Nat} {e : Exc}
    (h : regBit (xferFpscr p f s) (statusBit e) = true) : regBit f (statusBit e) = true := by
  have hr := statusBit_range e
  rw [regBit_xferFpscr p f s (statusBit_lt e) (by omega) (by omega)] at h
  exact (Bool.and_eq_true _ _ ▸ h).1

/-- `<fpscr-to-cr>` keeps the control and reserved bits. -/
theorem regBit_xferFpscr_control (p : Params) (f : Word) (s : Nat) {i : Nat} (h : i = 20 ∨ 24 ≤ i) :
    regBit (xferFpscr p f s) i = regBit f i := by
  by_cases hi : i < 32
  · rw [regBit_xferFpscr p f s hi (by omega) (by omega), clearedByXfer_control p s (by omega)]; simp
  · rw [regBit_of_ge _ (by omega), regBit_of_ge _ (by omega)]

/-- The copy into CR1, bit by bit. -/
theorem regBit_copyField_cr1 (x f : Word) {j : Nat} (hj : j < 4) :
    regBit (copyField x 1 f 0) (4 + j) = regBit f j := by
  simpa using regBit_copyField_inside x f 0 (k := 1) (j := j) (by omega) hj

/-! ## The numerics function's answer -/

/-- `out.ev` is a subset of EXC, listed without repetition (40_fp_instructions.md section 0.1). -/
theorem conformOut_ev_subset (p : Params) (k : FpKind) (b n : Bool) (raw : FpRaw) :
    ∀ e ∈ (conformOut p k b n raw).ev, e ∈ excs p := fun _ h => (List.mem_filter.mp h).1

end Sys2Proof.Machine
end

