-- ==== Sys2Proof/Laws/State.lean ====
section
/-! SUPPORT. One lemma per field per update of State, and per shared state-to-state operation. -/

namespace Sys2Proof.Machine

@[simp] theorem State.withFpscr_fpscr (s : State) (v : Word) : (s.withFpscr v).fpscr = v := rfl
@[simp] theorem State.withFpscr_cr (s : State) (v : Word) : (s.withFpscr v).cr = s.cr := rfl
@[simp] theorem State.withFpscr_msr20 (s : State) (v : Word) : (s.withFpscr v).msr20 = s.msr20 := rfl
@[simp] theorem State.withFpscr_msr23 (s : State) (v : Word) : (s.withFpscr v).msr23 = s.msr23 := rfl
@[simp] theorem State.withFpscr_pc (s : State) (v : Word) : (s.withFpscr v).pc = s.pc := rfl
@[simp] theorem State.withFpscr_endAddr (s : State) (v : Word) : (s.withFpscr v).endAddr = s.endAddr := rfl
@[simp] theorem State.withFpscr_text (s : State) (v : Word) : (s.withFpscr v).text = s.text := rfl
@[simp] theorem State.withFpscr_mem (s : State) (v : Word) : (s.withFpscr v).mem = s.mem := rfl
@[simp] theorem State.withFpscr_params (s : State) (v : Word) : (s.withFpscr v).params = s.params := rfl
@[simp] theorem State.withFpscr_fpSeq (s : State) (v : Word) : (s.withFpscr v).fpSeq = s.fpSeq := rfl

@[simp] theorem State.withCr_fpscr (s : State) (v : Word) : (s.withCr v).fpscr = s.fpscr := rfl
@[simp] theorem State.withCr_cr (s : State) (v : Word) : (s.withCr v).cr = v := rfl
@[simp] theorem State.withCr_msr20 (s : State) (v : Word) : (s.withCr v).msr20 = s.msr20 := rfl
@[simp] theorem State.withCr_msr23 (s : State) (v : Word) : (s.withCr v).msr23 = s.msr23 := rfl
@[simp] theorem State.withCr_pc (s : State) (v : Word) : (s.withCr v).pc = s.pc := rfl
@[simp] theorem State.withCr_endAddr (s : State) (v : Word) : (s.withCr v).endAddr = s.endAddr := rfl
@[simp] theorem State.withCr_text (s : State) (v : Word) : (s.withCr v).text = s.text := rfl
@[simp] theorem State.withCr_mem (s : State) (v : Word) : (s.withCr v).mem = s.mem := rfl
@[simp] theorem State.withCr_params (s : State) (v : Word) : (s.withCr v).params = s.params := rfl
@[simp] theorem State.withCr_fpSeq (s : State) (v : Word) : (s.withCr v).fpSeq = s.fpSeq := rfl

@[simp] theorem State.withPc_fpscr (s : State) (v : Word) : (s.withPc v).fpscr = s.fpscr := rfl
@[simp] theorem State.withPc_cr (s : State) (v : Word) : (s.withPc v).cr = s.cr := rfl
@[simp] theorem State.withPc_msr20 (s : State) (v : Word) : (s.withPc v).msr20 = s.msr20 := rfl
@[simp] theorem State.withPc_msr23 (s : State) (v : Word) : (s.withPc v).msr23 = s.msr23 := rfl
@[simp] theorem State.withPc_pc (s : State) (v : Word) : (s.withPc v).pc = v := rfl
@[simp] theorem State.withPc_endAddr (s : State) (v : Word) : (s.withPc v).endAddr = s.endAddr := rfl
@[simp] theorem State.withPc_text (s : State) (v : Word) : (s.withPc v).text = s.text := rfl
@[simp] theorem State.withPc_mem (s : State) (v : Word) : (s.withPc v).mem = s.mem := rfl
@[simp] theorem State.withPc_params (s : State) (v : Word) : (s.withPc v).params = s.params := rfl
@[simp] theorem State.withPc_fpSeq (s : State) (v : Word) : (s.withPc v).fpSeq = s.fpSeq := rfl

@[simp] theorem State.withEndAddr_fpscr (s : State) (v : Option Word) : (s.withEndAddr v).fpscr = s.fpscr := rfl
@[simp] theorem State.withEndAddr_cr (s : State) (v : Option Word) : (s.withEndAddr v).cr = s.cr := rfl
@[simp] theorem State.withEndAddr_msr20 (s : State) (v : Option Word) : (s.withEndAddr v).msr20 = s.msr20 := rfl
@[simp] theorem State.withEndAddr_msr23 (s : State) (v : Option Word) : (s.withEndAddr v).msr23 = s.msr23 := rfl
@[simp] theorem State.withEndAddr_pc (s : State) (v : Option Word) : (s.withEndAddr v).pc = s.pc := rfl
@[simp] theorem State.withEndAddr_endAddr (s : State) (v : Option Word) : (s.withEndAddr v).endAddr = v := rfl
@[simp] theorem State.withEndAddr_text (s : State) (v : Option Word) : (s.withEndAddr v).text = s.text := rfl
@[simp] theorem State.withEndAddr_mem (s : State) (v : Option Word) : (s.withEndAddr v).mem = s.mem := rfl
@[simp] theorem State.withEndAddr_params (s : State) (v : Option Word) : (s.withEndAddr v).params = s.params := rfl
@[simp] theorem State.withEndAddr_fpSeq (s : State) (v : Option Word) : (s.withEndAddr v).fpSeq = s.fpSeq := rfl

@[simp] theorem State.withText_fpscr (s : State) (v : Text) : (s.withText v).fpscr = s.fpscr := rfl
@[simp] theorem State.withText_cr (s : State) (v : Text) : (s.withText v).cr = s.cr := rfl
@[simp] theorem State.withText_msr20 (s : State) (v : Text) : (s.withText v).msr20 = s.msr20 := rfl
@[simp] theorem State.withText_msr23 (s : State) (v : Text) : (s.withText v).msr23 = s.msr23 := rfl
@[simp] theorem State.withText_pc (s : State) (v : Text) : (s.withText v).pc = s.pc := rfl
@[simp] theorem State.withText_endAddr (s : State) (v : Text) : (s.withText v).endAddr = s.endAddr := rfl
@[simp] theorem State.withText_text (s : State) (v : Text) : (s.withText v).text = v := rfl
@[simp] theorem State.withText_mem (s : State) (v : Text) : (s.withText v).mem = s.mem := rfl
@[simp] theorem State.withText_params (s : State) (v : Text) : (s.withText v).params = s.params := rfl
@[simp] theorem State.withText_fpSeq (s : State) (v : Text) : (s.withText v).fpSeq = s.fpSeq := rfl

@[simp] theorem State.withMem_fpscr (s : State) (v : Memory) : (s.withMem v).fpscr = s.fpscr := rfl
@[simp] theorem State.withMem_cr (s : State) (v : Memory) : (s.withMem v).cr = s.cr := rfl
@[simp] theorem State.withMem_msr20 (s : State) (v : Memory) : (s.withMem v).msr20 = s.msr20 := rfl
@[simp] theorem State.withMem_msr23 (s : State) (v : Memory) : (s.withMem v).msr23 = s.msr23 := rfl
@[simp] theorem State.withMem_pc (s : State) (v : Memory) : (s.withMem v).pc = s.pc := rfl
@[simp] theorem State.withMem_endAddr (s : State) (v : Memory) : (s.withMem v).endAddr = s.endAddr := rfl
@[simp] theorem State.withMem_text (s : State) (v : Memory) : (s.withMem v).text = s.text := rfl
@[simp] theorem State.withMem_mem (s : State) (v : Memory) : (s.withMem v).mem = v := rfl
@[simp] theorem State.withMem_params (s : State) (v : Memory) : (s.withMem v).params = s.params := rfl
@[simp] theorem State.withMem_fpSeq (s : State) (v : Memory) : (s.withMem v).fpSeq = s.fpSeq := rfl

@[simp] theorem State.withFpSeq_fpscr (s : State) (v : Nat) : (s.withFpSeq v).fpscr = s.fpscr := rfl
@[simp] theorem State.withFpSeq_cr (s : State) (v : Nat) : (s.withFpSeq v).cr = s.cr := rfl
@[simp] theorem State.withFpSeq_msr20 (s : State) (v : Nat) : (s.withFpSeq v).msr20 = s.msr20 := rfl
@[simp] theorem State.withFpSeq_msr23 (s : State) (v : Nat) : (s.withFpSeq v).msr23 = s.msr23 := rfl
@[simp] theorem State.withFpSeq_pc (s : State) (v : Nat) : (s.withFpSeq v).pc = s.pc := rfl
@[simp] theorem State.withFpSeq_endAddr (s : State) (v : Nat) : (s.withFpSeq v).endAddr = s.endAddr := rfl
@[simp] theorem State.withFpSeq_text (s : State) (v : Nat) : (s.withFpSeq v).text = s.text := rfl
@[simp] theorem State.withFpSeq_mem (s : State) (v : Nat) : (s.withFpSeq v).mem = s.mem := rfl
@[simp] theorem State.withFpSeq_params (s : State) (v : Nat) : (s.withFpSeq v).params = s.params := rfl
@[simp] theorem State.withFpSeq_fpSeq (s : State) (v : Nat) : (s.withFpSeq v).fpSeq = v := rfl

@[simp] theorem advance_fpscr (s : State) : (advance s).fpscr = s.fpscr := rfl
@[simp] theorem advance_cr (s : State) : (advance s).cr = s.cr := rfl
@[simp] theorem advance_msr20 (s : State) : (advance s).msr20 = s.msr20 := rfl
@[simp] theorem advance_msr23 (s : State) : (advance s).msr23 = s.msr23 := rfl
@[simp] theorem advance_pc (s : State) : (advance s).pc = nextPc s.pc := rfl
@[simp] theorem advance_endAddr (s : State) : (advance s).endAddr = s.endAddr := rfl
@[simp] theorem advance_text (s : State) : (advance s).text = s.text := rfl
@[simp] theorem advance_mem (s : State) : (advance s).mem = s.mem := rfl
@[simp] theorem advance_params (s : State) : (advance s).params = s.params := rfl
@[simp] theorem advance_fpSeq (s : State) : (advance s).fpSeq = s.fpSeq := rfl

@[simp] theorem storeCompare_fpscr (f : Nat) (s : State) : (storeCompare f s).fpscr = s.fpscr := rfl
@[simp] theorem storeCompare_cr (f : Nat) (s : State) : (storeCompare f s).cr = copyField s.cr f s.fpscr 4 := rfl
@[simp] theorem storeCompare_msr20 (f : Nat) (s : State) : (storeCompare f s).msr20 = s.msr20 := rfl
@[simp] theorem storeCompare_msr23 (f : Nat) (s : State) : (storeCompare f s).msr23 = s.msr23 := rfl
@[simp] theorem storeCompare_pc (f : Nat) (s : State) : (storeCompare f s).pc = s.pc := rfl
@[simp] theorem storeCompare_endAddr (f : Nat) (s : State) : (storeCompare f s).endAddr = s.endAddr := rfl
@[simp] theorem storeCompare_text (f : Nat) (s : State) : (storeCompare f s).text = s.text := rfl
@[simp] theorem storeCompare_mem (f : Nat) (s : State) : (storeCompare f s).mem = s.mem := rfl
@[simp] theorem storeCompare_params (f : Nat) (s : State) : (storeCompare f s).params = s.params := rfl
@[simp] theorem storeCompare_fpSeq (f : Nat) (s : State) : (storeCompare f s).fpSeq = s.fpSeq := rfl

variable (dot : Bool) (out : FpOut) (s : State)

@[simp] theorem recordStatus_fpscr : (recordStatus dot out s).fpscr = 
    record s.params (Config.freeBit0 s.fpSeq) s.fpscr out := rfl
@[simp] theorem recordStatus_cr : (recordStatus dot out s).cr = 
    if dot then copyField s.cr 1 (record s.params (Config.freeBit0 s.fpSeq) s.fpscr out) 0 else s.cr := rfl
@[simp] theorem recordStatus_msr20 : (recordStatus dot out s).msr20 = s.msr20 := rfl
@[simp] theorem recordStatus_msr23 : (recordStatus dot out s).msr23 = s.msr23 := rfl
@[simp] theorem recordStatus_pc : (recordStatus dot out s).pc = s.pc := rfl
@[simp] theorem recordStatus_endAddr : (recordStatus dot out s).endAddr = s.endAddr := rfl
@[simp] theorem recordStatus_text : (recordStatus dot out s).text = s.text := rfl
@[simp] theorem recordStatus_mem : (recordStatus dot out s).mem = s.mem := rfl
@[simp] theorem recordStatus_params : (recordStatus dot out s).params = s.params := rfl
@[simp] theorem recordStatus_fpSeq : (recordStatus dot out s).fpSeq = s.fpSeq + 1 := rfl

end Sys2Proof.Machine
end

