-- ==== Sys2Proof/Laws/Exec.lean ====
section
/-! SUPPORT. What each shared operation and `exec` can answer, said once. -/

namespace Sys2Proof.Machine

/-! ## The shared operations -/

/-- A taken branch that goes on goes to its target, which is aligned and of the program. -/
theorem branchTo_next {a : Word} {s t : State} (h : branchTo a s = .next t) :
    aligned a = true ∧ (holdsStatement s a || s.endAddr == some a) = true ∧ t = s.withPc a := by
  unfold branchTo at h
  split at h
  · next ha =>
    split at h
    · next hp => exact ⟨ha, hp, (Host.Outcome.next.inj h).symm⟩
    · cases h
  · cases h

/-- A branch writes the pc and nothing else. -/
theorem branchIf_next {c : Bool} {g : Target} {s t : State} (h : branchIf c g s = .next t) :
    t = s.withPc t.pc ∧ (t.pc = nextPc s.pc ∨ aligned t.pc = true ∧ t.pc = branchTarget s.pc g) := by
  unfold branchIf at h
  split at h
  · obtain ⟨ha, -, rfl⟩ := branchTo_next h
    exact ⟨rfl, .inr ⟨ha, rfl⟩⟩
  · cases h; exact ⟨rfl, .inl rfl⟩

theorem fieldBranchIf_next {c : Bool → Bool → Bool → Bool → Bool} {k : Nat} {g : Target} {s t : State}
    (h : fieldBranchIf c k g s = .next t) : t = s.withPc t.pc ∧ (t.pc = nextPc s.pc ∨ aligned t.pc = true) := by
  unfold fieldBranchIf at h
  split at h
  · obtain ⟨h1, h2⟩ := branchIf_next h
    exact ⟨h1, h2.imp_right And.left⟩
  · cases h

theorem bitBranchIf_next {b : Nat} {g : Target} {s t : State} (h : bitBranchIf b g s = .next t) :
    t = s.withPc t.pc ∧ (t.pc = nextPc s.pc ∨ aligned t.pc = true) := by
  unfold bitBranchIf at h
  split at h
  · obtain ⟨h1, h2⟩ := branchIf_next h
    exact ⟨h1, h2.imp_right And.left⟩
  · cases h

/-- A floating-point instruction goes on exactly when it does not trap. -/
theorem completeFp_next {dot : Bool} {out : FpOut} {s t : State} (h : completeFp dot out s = .next t) :
    trap s out = false ∧ t = advance (recordStatus dot out s) := by
  unfold completeFp at h
  split at h
  · cases h
  · next ht => cases h; exact ⟨by simpa using ht, rfl⟩

theorem completeFp_of_trap {dot : Bool} {out : FpOut} {s : State} (h : trap s out = true) :
    completeFp dot out s =
      .fault (.floatingPointEnabledException out.ev s.pc (recordStatus dot out s)) := by
  simp [completeFp, h, raiseFpEnabled]

theorem completeFp_of_not_trap {dot : Bool} {out : FpOut} {s : State} (h : trap s out = false) :
    completeFp dot out s = .next (advance (recordStatus dot out s)) := by
  simp [completeFp, h]

theorem execFpscrToCr_next {f src : Nat} {s t : State} (h : execFpscrToCr f src s = .next t) :
    2 ≤ f ∧ f ≤ 4 ∧ src < 8 ∧
      t = advance ((s.withCr (copyField s.cr f s.fpscr src)).withFpscr (xferFpscr s.params s.fpscr src)) := by
  unfold execFpscrToCr at h
  split at h
  · next hf =>
    split at h
    · next hs => exact ⟨hf.1, hf.2, hs, (Host.Outcome.next.inj h).symm⟩
    · cases h
  · cases h

/-- With no valid enable, or none set, nothing traps. -/
theorem trap_eq_false {s : State} (out : FpOut)
    (h : s.msr20 = false ∧ s.msr23 = false ∨ ∀ i, 24 ≤ i → i ≤ 28 → regBit s.fpscr i = false) :
    trap s out = false := by
  rcases h with ⟨h1, h2⟩ | h
  · simp [trap, enablesValid, h1, h2]
  · have : (out.ev.any fun e => regBit s.fpscr (enableBit e)) = false := by
      rw [List.any_eq_false]
      intro e _
      simp [h _ (enableBit_range e).1 (enableBit_range e).2]
    simp [trap, this]

/-- The premise NoPendingEnabledException is what the step checks. -/
theorem noPending_iff {s : State} : NoPendingEnabledException s ↔ pendingEnabled s = false := by
  unfold NoPendingEnabledException pendingEnabled
  rw [← Bool.not_eq_true, Bool.and_eq_true, List.any_eq_true]
  constructor
  · rintro h ⟨hv, e, he, hb⟩
    rw [Bool.and_eq_true] at hb
    exact h e he ⟨hb.1, hb.2, hv⟩
  · rintro h e he ⟨h1, h2, h3⟩
    exact h ⟨h3, e, he, by simp [h1, h2]⟩

/-- What a word that goes on did: the meaning of its admitted row, or a comparison's with its result stored. -/
theorem execWord_next {i : Instr} {s t : State} (h : execWord i s = .next t) :
    (compareField i = none ∧ exec (admittedRow s.params i) s = .next t) ∨
      ∃ f u, compareField i = some f ∧ 2 ≤ f ∧ f ≤ 4 ∧ exec i s = .next u ∧ t = storeCompare f u := by
  unfold execWord at h
  split at h
  · next f hf =>
    split at h
    · next hr =>
      cases he : exec i s with
      | next u => rw [he] at h; cases h; exact .inr ⟨f, u, hf, hr.1, hr.2, rfl, rfl⟩
      | fault r => rw [he] at h; cases r; cases h
      | refused r => rw [he] at h; cases h
    · cases h
  · next hf => exact .inl ⟨hf, h⟩

theorem execWord_fault {i : Instr} {s : State} {r : Fault} (h : execWord i s = .fault r) :
    ∃ j r', exec j s = .fault r' := by
  unfold execWord at h
  split at h
  · split at h
    · cases he : exec i s with
      | next u => rw [he] at h; cases h
      | fault r' => exact ⟨i, r', he⟩
      | refused r => rw [he] at h; cases h
    · cases h
  · exact ⟨_, r, h⟩

/-- A word that is no comparison, on an admitted field, does what its instruction does. -/
theorem execWord_of_admitted {i : Instr} {s : State} (hc : compareField i = none)
    (ha : admittedRow s.params i = i) : execWord i s = exec i s := by
  simp only [execWord, hc, ha]

/-- What a comparison's word leaves is what its `<fpinstr>` leaves, with the result stored. -/
theorem stateLeft_alsoStoreCompare (f : Nat) (o : Host.Outcome State Fault Refusal) :
    stateLeft (alsoStoreCompare f o) = (stateLeft o).map (storeCompare f) := by
  cases o with
  | next => rfl
  | fault r => cases r; rfl
  | refused => rfl

/-- A comparison's word that names CR2, CR3 or CR4. -/
theorem execWord_of_compare {i : Instr} {f : Nat} (s : State) (h : compareField i = some f) (h2 : 2 ≤ f)
    (h4 : f ≤ 4) : execWord i s = alsoStoreCompare f (exec i s) := by
  simp [execWord, h, h2, h4]

/-- The row that runs of a word is the decoded one or `bt`. -/
theorem admittedRow_eq_or_bt (p : Params) (i : Instr) :
    admittedRow p i = i ∨ ∃ b t, admittedRow p i = .bt b t := by
  cases i with
  | blt k t => simp only [admittedRow]; split <;> simp
  | bgt k t => simp only [admittedRow]; split <;> simp
  | beq k t => simp only [admittedRow]; split <;> simp
  | bun k t => simp only [admittedRow]; split <;> simp
  | _ => exact .inl rfl

/-- What a step that goes on did: a statement's meaning, a word's, or a comparison's word with its result stored. -/
theorem step_cases {s t : State} (h : step s = .next t) :
    (∃ i, fetch s = .statement i ∧ exec i s = .next t) ∨
    (∃ i, fetch s = .word i ∧ compareField i = none ∧ exec (admittedRow s.params i) s = .next t) ∨
    ∃ i f u, fetch s = .word i ∧ compareField i = some f ∧ 2 ≤ f ∧ f ≤ 4 ∧ exec i s = .next u ∧
      t = storeCompare f u := by
  unfold step at h
  split at h
  · next i hi => exact .inl ⟨i, hi, h⟩
  · next i hi =>
    rcases execWord_next h with ⟨hc, he⟩ | ⟨f, u, hf⟩
    · exact .inr (.inl ⟨i, hi, hc, he⟩)
    · exact .inr (.inr ⟨i, f, u, hi, hf⟩)
  · cases h

/-- A step that goes on executed an instruction, and stored its result if it is a comparison's word. -/
theorem step_next {s t : State} (h : step s = .next t) :
    ∃ i u, exec i s = .next u ∧
      (t = u ∨ ∃ f, compareField i = some f ∧ 2 ≤ f ∧ f ≤ 4 ∧ t = storeCompare f u) := by
  rcases step_cases h with ⟨i, -, he⟩ | ⟨i, -, -, he⟩ | ⟨i, f, u, -, hc, h2, h4, he, ht⟩
  · exact ⟨i, t, he, .inl rfl⟩
  · exact ⟨_, t, he, .inl rfl⟩
  · exact ⟨i, u, he, .inr ⟨f, hc, h2, h4, ht⟩⟩

/-! ## exec -/

theorem exec_fpForm (dot : Bool) (op : FpOp) (s : State) :
    exec (fpForm dot op) s = completeFp dot (fpOut op s) s := by cases dot <;> rfl

/-- What a floating-point instruction leaves, going on or faulting: the recorded status. -/
theorem stateLeft_fpForm (dot : Bool) (op : FpOp) (s : State) :
    ∃ t, stateLeft (exec (fpForm dot op) s) = some t ∧
      t.withPc s.pc = recordStatus dot (fpOut op s) s := by
  rw [exec_fpForm]
  cases h : trap s (fpOut op s)
  · rw [completeFp_of_not_trap h]; exact ⟨_, rfl, rfl⟩
  · rw [completeFp_of_trap h]; exact ⟨_, rfl, rfl⟩

/-- What a state after `exec` is: status recorded, an FPSCR field stored, or the pc alone moved. -/
theorem exec_next {i : Instr} {s t : State} (h : exec i s = .next t) :
    (∃ dot op, i = (if dot then .fpinstrDot op else .fpinstr op) ∧ trap s (fpOut op s) = false ∧
      t = advance (recordStatus dot (fpOut op s) s)) ∨
    (∃ f src, i = .fpscrToCr f src ∧ 2 ≤ f ∧ f ≤ 4 ∧ src < 8 ∧
      t = advance ((s.withCr (copyField s.cr f s.fpscr src)).withFpscr (xferFpscr s.params s.fpscr src))) ∨
    (t = s.withPc t.pc ∧ (t.pc = nextPc s.pc ∨ aligned t.pc = true)) := by
  cases i with
  | fpinstr op => exact .inl ⟨false, op, rfl, completeFp_next (show execFpinstr op s = _ from h)⟩
  | fpinstrDot op => exact .inl ⟨true, op, rfl, completeFp_next (show execFpinstrDot op s = _ from h)⟩
  | mtfsf fm frB rc => cases h
  | fpscrToCr f src => exact .inr (.inl ⟨f, src, rfl, execFpscrToCr_next h⟩)
  | bta b a => exact .inr (.inr (bitBranchIf_next (show execBta b a s = _ from h)))
  | bt b t => exact .inr (.inr (bitBranchIf_next (show execBt b t s = _ from h)))
  | blt k t => exact .inr (.inr (fieldBranchIf_next (show execBlt k t s = _ from h)))
  | ble k t => exact .inr (.inr (fieldBranchIf_next (show execBle k t s = _ from h)))
  | beq k t => exact .inr (.inr (fieldBranchIf_next (show execBeq k t s = _ from h)))
  | bge k t => exact .inr (.inr (fieldBranchIf_next (show execBge k t s = _ from h)))
  | bgt k t => exact .inr (.inr (fieldBranchIf_next (show execBgt k t s = _ from h)))
  | bnl k t => exact .inr (.inr (fieldBranchIf_next (show execBnl k t s = _ from h)))
  | bne k t => exact .inr (.inr (fieldBranchIf_next (show execBne k t s = _ from h)))
  | bng k t => exact .inr (.inr (fieldBranchIf_next (show execBng k t s = _ from h)))
  | bun k t => exact .inr (.inr (fieldBranchIf_next (show execBun k t s = _ from h)))
  | bnu k t => exact .inr (.inr (fieldBranchIf_next (show execBnu k t s = _ from h)))

end Sys2Proof.Machine
end

