-- ==== Sys2Proof/Laws/Branch.lean ====
section
/-! SUPPORT. Every branch is the shared branch on its row of Table 12-2. -/

namespace Sys2Proof.Machine

/-- A branch does what `branchIf` does on its condition and target, or is refused for its operand. -/
theorem exec_branch {i : Instr} {s : State} (h : isBranch i = true) :
    exec i s =
      match branchTest s i with
      | some (c, t) => branchIf c t s
      | none => .refused .notInSpec := by
  cases i with
  | fpinstr => cases h
  | fpinstrDot => cases h
  | mtfsf => cases h
  | fpscrToCr => cases h
  | bta b a => simp only [exec, execBta, bitBranchIf, branchTest]; split <;> rfl
  | bt b t => simp only [exec, execBt, bitBranchIf, branchTest]; split <;> rfl
  | blt k t => simp only [exec, execBlt, fieldBranchIf, branchTest]; split <;> rfl
  | ble k t =>
    simp only [exec, execBle, fieldBranchIf, branchTest]
    split
    · cases s.params.leGeReading <;> rfl
    · rfl
  | beq k t => simp only [exec, execBeq, fieldBranchIf, branchTest]; split <;> rfl
  | bge k t =>
    simp only [exec, execBge, fieldBranchIf, branchTest]
    split
    · cases s.params.leGeReading <;> rfl
    · rfl
  | bgt k t => simp only [exec, execBgt, fieldBranchIf, branchTest]; split <;> rfl
  | bnl k t => simp only [exec, execBnl, fieldBranchIf, branchTest]; split <;> rfl
  | bne k t => simp only [exec, execBne, fieldBranchIf, branchTest]; split <;> rfl
  | bng k t => simp only [exec, execBng, fieldBranchIf, branchTest]; split <;> rfl
  | bun k t => simp only [exec, execBun, fieldBranchIf, branchTest]; split <;> rfl
  | bnu k t => simp only [exec, execBnu, fieldBranchIf, branchTest]; split <;> rfl

theorem isBranch_of_branchTest {i : Instr} {s : State} {p : Bool × Target} (h : branchTest s i = some p) :
    isBranch i = true := by
  cases i <;> first | rfl | cases h

/-- A branch whose operands are admitted, as its test. -/
theorem exec_of_branchTest {i : Instr} {s : State} {c : Bool} {t : Target}
    (h : branchTest s i = some (c, t)) : exec i s = branchIf c t s := by
  rw [exec_branch (isBranch_of_branchTest h), h]

theorem branchTo_of_admitted {s : State} {a : Word} (h : TargetAdmitted s a) :
    branchTo a s = .next (s.withPc a) := by
  obtain ⟨ha, hp⟩ := h
  rw [branchTo, if_pos ha, if_pos (by simpa using hp)]

/-- The two halves of a branch. -/
theorem branchesWhen_of_branchTest {i : Instr} {s : State} {c : Bool} {t : Target}
    (h : branchTest s i = some (c, t)) : BranchesWhen i s t c := by
  rw [BranchesWhen, exec_of_branchTest h]
  refine ⟨fun hc ht => ?_, fun hc => ?_⟩
  · rw [branchIf, if_pos hc, branchTo_of_admitted ht]
  · rw [branchIf, if_neg (by simp [hc])]; rfl

end Sys2Proof.Machine
end

