-- ==== Sys2Proof/Laws/Decode.lean ====
section
/-! SUPPORT. What the decoder reads back from an encoded word, field by field. -/

namespace Sys2Proof

/-- An instruction field as arithmetic on the word. -/
theorem insnBits_toNat (w : Word) (i j : Nat) :
    (insnBits w i j).toNat = w.toNat / 2 ^ (31 - j) % 2 ^ (j - i + 1) := by
  simp [insnBits, Nat.shiftRight_eq_div_pow]

theorem append_toNat {n m : Nat} (x : BitVec n) (y : BitVec m) :
    (x ++ y).toNat = x.toNat * 2 ^ m + y.toNat := by
  rw [BitVec.toNat_append, ← Nat.shiftLeft_add_eq_or_of_lt y.isLt, Nat.shiftLeft_eq]

theorem insnBits_eq_iff (w : Word) (i j v : Nat) (hv : v < 2 ^ (j - i + 1)) :
    insnBits w i j = BitVec.ofNat (j - i + 1) v ↔ w.toNat / 2 ^ (31 - j) % 2 ^ (j - i + 1) = v := by
  rw [← BitVec.toNat_inj, insnBits_toNat, BitVec.toNat_ofNat, Nat.mod_eq_of_lt hv]

/-! ## B-form words -/

theorem encodeB_toNat (bo : BitVec 4) {bi : Nat} (bd : BitVec 14) (aa : Bool) (h : bi < 32) :
    (encodeB bo bi bd aa).toNat =
      16 * 2 ^ 26 + bo.toNat * 2 ^ 22 + bi * 2 ^ 16 + bd.toNat * 4 + aa.toNat * 2 := by
  simp only [encodeB, append_toNat, BitVec.toNat_ofNat, BitVec.toNat_ofBool]
  rw [Nat.mod_eq_of_lt (by omega : bi < 2 ^ 5)]
  omega

section
variable (bo : BitVec 4) {bi : Nat} (bd : BitVec 14) (aa : Bool) (h : bi < 32)
include h

theorem encodeB_opcode : insnBits (encodeB bo bi bd aa) 0 5 = 16#6 := by
  have := bo.isLt; have := bd.isLt; have := Bool.toNat_lt aa
  refine (insnBits_eq_iff _ 0 5 16 (by decide)).mpr ?_
  rw [encodeB_toNat bo bd aa h]; omega

theorem encodeB_bo : insnBits (encodeB bo bi bd aa) 6 9 = bo := by
  have := bo.isLt; have := bd.isLt; have := Bool.toNat_lt aa
  apply BitVec.eq_of_toNat_eq
  rw [insnBits_toNat, encodeB_toNat bo bd aa h]; omega

theorem encodeB_bi : (insnBits (encodeB bo bi bd aa) 11 15).toNat = bi := by
  have := bo.isLt; have := bd.isLt; have := Bool.toNat_lt aa
  rw [insnBits_toNat, encodeB_toNat bo bd aa h]; omega

theorem encodeB_bd : insnBits (encodeB bo bi bd aa) 16 29 = bd := by
  have := bo.isLt; have := bd.isLt; have := Bool.toNat_lt aa
  apply BitVec.eq_of_toNat_eq
  rw [insnBits_toNat, encodeB_toNat bo bd aa h]; omega

theorem encodeB_aa : insnBits (encodeB bo bi bd aa) 30 30 = BitVec.ofBool aa := by
  have := bo.isLt; have := bd.isLt; have := Bool.toNat_lt aa
  apply BitVec.eq_of_toNat_eq
  rw [insnBits_toNat, encodeB_toNat bo bd aa h, BitVec.toNat_ofBool]; omega

theorem encodeB_lk : insnBits (encodeB bo bi bd aa) 31 31 = 0#1 := by
  have := bo.isLt; have := bd.isLt; have := Bool.toNat_lt aa
  refine (insnBits_eq_iff _ 31 31 0 (by decide)).mpr ?_
  rw [encodeB_toNat bo bd aa h]; omega

theorem decode_encodeB_relative (ifSet : Bool) :
    decode (encodeB (if ifSet then 0b0110#4 else 0b0010#4) bi bd false) =
      .instr (fieldBranch ifSet (bi % 4) (bi / 4) (.disp bd)) := by
  cases ifSet <;>
    simp [decode, decodeBranch, encodeB_opcode, encodeB_lk, encodeB_bo, encodeB_bi, encodeB_bd, encodeB_aa, h]

theorem decode_encodeB_absolute :
    decode (encodeB 0b0110#4 bi bd true) = .instr (.bta bi (absoluteTarget bd)) := by
  simp [decode, decodeBranch, encodeB_opcode, encodeB_lk, encodeB_bo, encodeB_bi, encodeB_bd, encodeB_aa, h]

end

/-! ## Rows of floating-point words -/

theorem fpRowOf_mem {w : Word} {r : FpRow} (h : fpRowOf w = some r) : r ∈ fpRows :=
  List.mem_of_find?_eq_some h

theorem fpRowOf_match {w : Word} {r : FpRow} (h : fpRowOf w = some r) : w &&& r.mask = r.pattern := by
  simpa using List.find?_some h

/-- No row matches a word that differs, in bits `c` of every row's mask, from every row's pattern. -/
theorem fpRowOf_eq_none {w c v : Word} (hw : w &&& c = v)
    (h : ∀ r ∈ fpRows, v &&& r.mask ≠ r.pattern &&& c) : fpRowOf w = none := by
  rw [fpRowOf, List.find?_eq_none]
  intro r hr hm
  have hm : w &&& r.mask = r.pattern := by simpa using hm
  refine h r hr ?_
  rw [← hw, ← hm]
  ac_rfl

theorem and_opcodeMask (w : Word) : w &&& 0xFC000000#32 = insnBits w 0 5 ++ 0#26 := by
  apply BitVec.eq_of_getLsbD_eq
  intro i hi
  simp only [insnBits, BitVec.getLsbD_and, BitVec.getLsbD_append, BitVec.getLsbD_extractLsb']
  interval_cases i <;> simp +decide [BitVec.getLsbD]

theorem and_opcodeXoMask (w : Word) :
    w &&& 0xFC0007FE#32 = insnBits w 0 5 ++ 0#15 ++ insnBits w 21 30 ++ 0#1 := by
  apply BitVec.eq_of_getLsbD_eq
  intro i hi
  simp only [insnBits, BitVec.getLsbD_and, BitVec.getLsbD_append, BitVec.getLsbD_extractLsb']
  interval_cases i <;> simp +decide [BitVec.getLsbD]

/-- A B-form word is no floating-point row. -/
theorem opcode_of_fpRow {w : Word} {r : FpRow} (h : fpRowOf w = some r) : insnBits w 0 5 ≠ 16#6 := by
  intro h16
  have hw := and_opcodeMask w
  rw [h16] at hw
  have : fpRowOf w = none := fpRowOf_eq_none hw (by decide)
  simp [this] at h

/-- Words of `mcrfs` and `mtfsf` are no floating-point rows. -/
theorem fpRowOf_mcrfs {w : Word} (h1 : insnBits w 0 5 = 63#6) (h2 : insnBits w 21 30 = 64#10) :
    fpRowOf w = none := by
  have hw := and_opcodeXoMask w
  rw [h1, h2] at hw
  exact fpRowOf_eq_none hw (by decide)

theorem fpRowOf_mtfsf {w : Word} (h1 : insnBits w 0 5 = 63#6) (h2 : insnBits w 21 30 = 711#10) :
    fpRowOf w = none := by
  have hw := and_opcodeXoMask w
  rw [h1, h2] at hw
  exact fpRowOf_eq_none hw (by decide)

/-- Words of mffs, mtfsfi, mtfsb0 and mtfsb1 are no floating-point rows. -/
theorem fpRowOf_manipulating {w : Word} (h1 : insnBits w 0 5 = 63#6)
    (h2 : insnBits w 21 30 ∈ [583#10, 134#10, 70#10, 38#10]) : fpRowOf w = none := by
  have hw := and_opcodeXoMask w
  rw [h1] at hw
  simp only [List.mem_cons, List.not_mem_nil, or_false] at h2
  rcases h2 with h2 | h2 | h2 | h2 <;> rw [h2] at hw <;> exact fpRowOf_eq_none hw (by decide)

/-- What the decoder answers on a word of a floating-point row. -/
theorem decode_fpRow {w : Word} {r : FpRow} (h : fpRowOf w = some r) :
    decode w =
      if r.dot ∧ insnBits w 31 31 = 1#1 then .instr (.fpinstrDot ⟨r.kind, insnBits w 0 30⟩)
      else .instr (.fpinstr ⟨r.kind, insnBits w 0 30⟩) := by
  simp [decode, opcode_of_fpRow h, h]

/-- An absolute target keeps its displacement field. -/
theorem extract_absoluteTarget (bd : BitVec 14) : (absoluteTarget bd).extractLsb' 2 14 = bd := by
  apply BitVec.eq_of_getLsbD_eq
  intro i hi
  simp only [absoluteTarget, BitVec.getLsbD_extractLsb', BitVec.getLsbD_signExtend, BitVec.getLsbD_append]
  have h1 : 2 + i < 32 := by omega
  have h2 : 2 + i < 16 := by omega
  have h3 : ¬ (2 + i < 2) := by omega
  simp only [hi, h1, h2, h3, if_true, if_false, decide_true, Bool.true_and]
  congr 1; omega

/-- No word belongs to two floating-point rows. -/
theorem fpRows_disjoint :
    ∀ r ∈ fpRows, ∀ r' ∈ fpRows, r = r' ∨ r.pattern &&& r'.mask ≠ r'.pattern &&& r.mask := by decide

/-- A row that matches a word is its row. -/
theorem fpRowOf_of_match {w : Word} {r : FpRow} (h : r ∈ fpRows) (m : w &&& r.mask = r.pattern) :
    fpRowOf w = some r := by
  cases hf : fpRowOf w with
  | none =>
    rw [fpRowOf, List.find?_eq_none] at hf
    exact (hf r h (by simpa using m)).elim
  | some r' =>
    rcases fpRows_disjoint r' (fpRowOf_mem hf) r h with he | he
    · rw [he]
    · exact (he (by rw [← fpRowOf_match hf, ← m]; ac_rfl)).elim

/-- A word is its first 31 bits and its record bit. -/
theorem insnBits_append_record (w : Word) : (insnBits w 0 30 ++ insnBits w 31 31 : Word) = w := by
  have := w.isLt
  apply BitVec.eq_of_toNat_eq
  rw [append_toNat, insnBits_toNat, insnBits_toNat]; omega

theorem insnBits_code (code : BitVec 31) (rc : Bool) :
    insnBits (code ++ BitVec.ofBool rc : Word) 0 30 = code := by
  have := code.isLt; have := Bool.toNat_lt rc
  apply BitVec.eq_of_toNat_eq
  rw [insnBits_toNat, append_toNat, BitVec.toNat_ofBool]; omega

/-- The field a comparison's word names is instruction bits 6 to 8. -/
theorem compareField_word (w : Word) {kind : FpKind} (h : kind = .compare ∨ kind = .compareOrdered) :
    compareField (.fpinstr ⟨kind, insnBits w 0 30⟩) = some (insnBits w 6 8).toNat := by
  have : ((insnBits w 0 30).extractLsb' 22 3).toNat = (insnBits w 6 8).toNat := by
    simp [insnBits, Nat.shiftRight_eq_div_pow]
    omega
  simp [compareField, h, this]

/-- Only `<fpinstr>` has such a field, and it is one of the eight. -/
theorem compareField_lt {i : Instr} {f : Nat} (h : compareField i = some f) : f < 8 ∧ ∃ op, i = .fpinstr op := by
  cases i with
  | fpinstr op =>
    simp only [compareField] at h
    split at h
    · cases h; exact ⟨BitVec.isLt _, op, rfl⟩
    · cases h
  | _ => cases h

theorem insnBits_record (code : BitVec 31) (rc : Bool) :
    insnBits (code ++ BitVec.ofBool rc : Word) 31 31 = BitVec.ofBool rc := by
  have := code.isLt; have := Bool.toNat_lt rc
  apply BitVec.eq_of_toNat_eq
  rw [insnBits_toNat, append_toNat, BitVec.toNat_ofBool]; omega

end Sys2Proof
end

