-- ==== Sys2Proof/Laws/Memory.lean ====
section
/-! SUPPORT. Lists by rising address: reading after writing, and the canonical form. -/

namespace Sys2Proof.Machine

variable {α : Type}

@[simp] theorem entryAt_setEntry_same (l : List (Nat × α)) (a : Nat) (x : α) :
    entryAt (setEntry l a x) a = some x := by
  induction l with
  | nil => simp [setEntry, entryAt]
  | cons e l ih =>
    obtain ⟨k, v⟩ := e
    simp only [setEntry]
    split
    · simp [entryAt]
    · split
      · simp [entryAt]
      · next h => simp [entryAt, h, ih]

@[simp] theorem entryAt_setEntry_other (l : List (Nat × α)) {a b : Nat} (x : α) (h : b ≠ a) :
    entryAt (setEntry l a x) b = entryAt l b := by
  induction l with
  | nil => simp [setEntry, entryAt, h]
  | cons e l ih =>
    obtain ⟨k, v⟩ := e
    simp only [setEntry]
    split
    · simp [entryAt, h]
    · split
      · next hk => subst hk; simp [entryAt, h]
      · simp [entryAt, ih]

theorem entryAt_dropEntry_same (l : List (Nat × α)) (a : Nat) : entryAt (dropEntry l a) a = none := by
  induction l with
  | nil => rfl
  | cons e l ih =>
    obtain ⟨k, v⟩ := e
    simp only [dropEntry, List.filter_cons] at *
    split
    · next h =>
      have hne : a ≠ k := fun hk => by simp [hk] at h
      rw [entryAt, if_neg hne]
      exact ih
    · exact ih

theorem risingFrom_mono {l : List (Nat × α)} {lo lo' : Nat} (h : lo' ≤ lo) (hl : risingFrom lo l = true) :
    risingFrom lo' l = true := by
  cases l with
  | nil => rfl
  | cons e l =>
    simp [risingFrom] at hl ⊢
    exact ⟨by omega, hl.2⟩

theorem risingFrom_setEntry {l : List (Nat × α)} {lo a : Nat} (x : α) (hl : risingFrom lo l = true)
    (ha : lo ≤ a) : risingFrom lo (setEntry l a x) = true := by
  induction l generalizing lo with
  | nil => simp [setEntry, risingFrom, ha]
  | cons e l ih =>
    obtain ⟨k, v⟩ := e
    simp only [risingFrom, Bool.and_eq_true, decide_eq_true_eq] at hl
    simp only [setEntry]
    split
    · next h =>
      simp only [risingFrom, Bool.and_eq_true, decide_eq_true_eq]
      exact ⟨ha, by omega, hl.2⟩
    · split
      · next h => subst h; simp [risingFrom, hl]
      · next h1 h2 =>
        simp only [risingFrom, Bool.and_eq_true, decide_eq_true_eq]
        exact ⟨hl.1, ih hl.2 (by omega)⟩

theorem mem_setEntry {l : List (Nat × α)} {a : Nat} {x : α} {e : Nat × α} (h : e ∈ setEntry l a x) :
    e = (a, x) ∨ e ∈ l := by
  induction l with
  | nil => simpa [setEntry] using h
  | cons c l ih =>
    obtain ⟨k, v⟩ := c
    simp only [setEntry] at h
    split at h
    · simpa using h
    · split at h
      · rcases List.mem_cons.mp h with h | h
        · exact .inl h
        · exact .inr (by simp [h])
      · rcases List.mem_cons.mp h with h | h
        · exact .inr (by simp [h])
        · rcases ih h with h | h
          · exact .inl h
          · exact .inr (by simp [h])

theorem risingFrom_filter {l : List (Nat × α)} {lo : Nat} (q : Nat × α → Bool) (hl : risingFrom lo l = true) :
    risingFrom lo (l.filter q) = true := by
  induction l generalizing lo with
  | nil => rfl
  | cons e l ih =>
    simp only [risingFrom, Bool.and_eq_true, decide_eq_true_eq] at hl
    rw [List.filter_cons]
    split
    · simp [risingFrom, hl.1, ih hl.2]
    · exact risingFrom_mono (by omega) (ih hl.2)

/-- A write keeps the canonical form of memory. -/
theorem writeByte_wf {m : Memory} {a : Nat} (b : Byte) (h : Memory.wf m = true) (ha : a < 2 ^ 32) :
    Memory.wf (writeByte m a b) = true := by
  simp only [Memory.wf, Bool.and_eq_true, List.all_eq_true, decide_eq_true_eq] at h ⊢
  refine ⟨risingFrom_setEntry b h.1 (Nat.zero_le _), fun e he => ?_⟩
  rcases mem_setEntry he with rfl | he
  · exact ha
  · exact h.2 e he

theorem writeBytes_wf {m : Memory} {a : Nat} (bs : List Byte) (h : Memory.wf m = true)
    (ha : a + bs.length ≤ 2 ^ 32) : Memory.wf (writeBytes m a bs) = true := by
  induction bs generalizing m a with
  | nil => exact h
  | cons b bs ih =>
    simp only [List.length_cons] at ha
    exact ih (writeByte_wf b h (by omega)) (by omega)

/-- Taking a statement out keeps the canonical form of the text. -/
theorem dropEntry_wf {t : Text} (a : Nat) (h : Text.wf t = true) : Text.wf (dropEntry t a) = true := by
  simp only [Text.wf, Bool.and_eq_true, List.all_eq_true, dropEntry] at h ⊢
  exact ⟨risingFrom_filter _ h.1, fun e he => h.2 e (List.mem_filter.mp he).1⟩

@[simp] theorem readByte_writeByte_same (m : Memory) (a : Nat) (b : Byte) :
    readByte (writeByte m a b) a = some b := entryAt_setEntry_same m a b

@[simp] theorem readByte_writeByte_other (m : Memory) {a c : Nat} (b : Byte) (h : c ≠ a) :
    readByte (writeByte m a b) c = readByte m c := entryAt_setEntry_other m b h

/-- The four bytes just written are read back. -/
theorem readInsnBytes_writeBytes (m : Memory) (a : Nat) (w : Word) :
    readInsnBytes (writeBytes m a (wordBytes w)) a = some (wordBytes w) := by
  have h0 : readByte (writeBytes m a (wordBytes w)) a = some (insnBits w 0 7) := by
    simp only [wordBytes, writeBytes]
    rw [readByte_writeByte_other _ _ (by omega), readByte_writeByte_other _ _ (by omega),
      readByte_writeByte_other _ _ (by omega), readByte_writeByte_same]
  rw [readInsnBytes, h0]
  simp [wordBytes, writeBytes]

end Sys2Proof.Machine
end

