-- ==== Sys2Proof/Laws/PerInstr.lean ====
section
/-! SUPPORT. Statements about every instruction as syntax, one lemma per constructor. -/

namespace Sys2Proof.Laws.RoundTrip

/-- The word an instruction encodes to decodes to the instruction the spec says its words decode to
(30_encoding.md R88): itself, but for `bt`, `ble` and `bge`. -/
def Statement (i : Instr) : Prop := ∀ w, encode i = some w → decode w = .instr i.canonical

theorem encodeFp_decode {op : FpOp} {rc : Bool} {w : Word} (h : encodeFp op rc = some w) :
    decode w = .instr (if rc then .fpinstrDot op else .fpinstr op) := by
  simp only [encodeFp] at h
  split at h
  · next r hr =>
    split at h
    · next hk =>
      obtain ⟨hk, hd⟩ := hk
      simp only [Option.some.injEq] at h
      subst h
      rw [decode_fpRow hr, insnBits_code, insnBits_record, hk]
      cases rc
      · simp
      · simp [hd rfl]
    · simp at h
  · simp at h

theorem fpinstr (op : FpOp) : Statement (.fpinstr op) := fun _ h => by
  simpa [Instr.canonical] using encodeFp_decode h

theorem fpinstrDot (op : FpOp) : Statement (.fpinstrDot op) := fun _ h => by
  simpa [Instr.canonical] using encodeFp_decode h

theorem mtfsf (fm : BitVec 8) (frB : BitVec 5) (rc : Bool) : Statement (.mtfsf fm frB rc) := by
  intro w h
  simp only [encode, Option.some.injEq] at h
  have := fm.isLt; have := frB.isLt; have := Bool.toNat_lt rc
  have hw : w.toNat = 63 * 2 ^ 26 + fm.toNat * 2 ^ 17 + frB.toNat * 2 ^ 11 + 711 * 2 + rc.toNat := by
    subst h
    simp only [append_toNat, BitVec.toNat_ofNat, BitVec.toNat_ofBool]; omega
  clear h
  have h1 : insnBits w 0 5 = 63#6 := (insnBits_eq_iff w 0 5 63 (by decide)).mpr (by rw [hw]; omega)
  have h2 : insnBits w 21 30 = 711#10 := (insnBits_eq_iff w 21 30 711 (by decide)).mpr (by rw [hw]; omega)
  have h3 : insnBits w 6 6 = 0#1 := (insnBits_eq_iff w 6 6 0 (by decide)).mpr (by rw [hw]; omega)
  have h4 : insnBits w 15 15 = 0#1 := (insnBits_eq_iff w 15 15 0 (by decide)).mpr (by rw [hw]; omega)
  have h5 : insnBits w 7 14 = fm := BitVec.eq_of_toNat_eq (by rw [insnBits_toNat, hw]; omega)
  have h6 : insnBits w 16 20 = frB := BitVec.eq_of_toNat_eq (by rw [insnBits_toNat, hw]; omega)
  have h7 : insnBits w 31 31 = BitVec.ofBool rc :=
    BitVec.eq_of_toNat_eq (by rw [insnBits_toNat, hw, BitVec.toNat_ofBool]; omega)
  have h8 := fpRowOf_mtfsf h1 h2
  simp [decode, h1, h8, decodeFpscr, h2, h3, h4, h5, h6, h7, Instr.canonical]
  cases rc <;> decide

theorem fpscrToCr (f s : Nat) : Statement (.fpscrToCr f s) := by
  intro w h
  simp only [encode] at h
  split at h
  · next hb =>
    obtain ⟨hf, hs⟩ := hb
    simp only [Option.some.injEq] at h
    have hw : w.toNat = 63 * 2 ^ 26 + f * 2 ^ 23 + s * 2 ^ 18 + 64 * 2 := by
      subst h
      simp only [append_toNat, BitVec.toNat_ofNat]; omega
    clear h
    have h1 : insnBits w 0 5 = 63#6 := (insnBits_eq_iff w 0 5 63 (by decide)).mpr (by rw [hw]; omega)
    have h2 : insnBits w 21 30 = 64#10 := (insnBits_eq_iff w 21 30 64 (by decide)).mpr (by rw [hw]; omega)
    have h3 : insnBits w 9 10 = 0#2 := (insnBits_eq_iff w 9 10 0 (by decide)).mpr (by rw [hw]; omega)
    have h4 : insnBits w 14 20 = 0#7 := (insnBits_eq_iff w 14 20 0 (by decide)).mpr (by rw [hw]; omega)
    have h5 : insnBits w 31 31 = 0#1 := (insnBits_eq_iff w 31 31 0 (by decide)).mpr (by rw [hw]; omega)
    have h6 : (insnBits w 6 8).toNat = f := by rw [insnBits_toNat, hw]; omega
    have h7 : (insnBits w 11 13).toNat = s := by rw [insnBits_toNat, hw]; omega
    have h8 := fpRowOf_mcrfs h1 h2
    simp [decode, h1, h8, decodeFpscr, h2, h3, h4, h5, h6, h7, Instr.canonical]
  · simp at h

theorem bta (b : Nat) (a : Word) : Statement (.bta b a) := by
  intro w h
  simp only [encode] at h
  split at h
  · next hb =>
    simp only [Option.some.injEq] at h
    subst h
    rw [decode_encodeB_absolute _ hb.1, hb.2]; rfl
  · simp at h

theorem bt (b : Nat) (t : Target) : Statement (.bt b t) := by
  intro w h
  cases t with
  | addr a => simp [encode] at h
  | disp bd =>
    simp only [encode] at h
    split at h
    · next hb =>
      simp only [Option.some.injEq] at h
      subst h
      exact decode_encodeB_relative bd hb true
    · simp at h

/-- The word of a field branch decodes to the field branch on its bit. -/
theorem encodeField_decode (ifSet : Bool) {j k : Nat} {t : Target} {w : Word} (hj : j < 4)
    (h : encodeField (if ifSet then 0b0110#4 else 0b0010#4) j k t = some w) :
    decode w = .instr (fieldBranch ifSet j k t) := by
  cases t with
  | addr a => simp [encodeField] at h
  | disp bd =>
    simp only [encodeField] at h
    split at h
    · next hk =>
      simp only [Option.some.injEq] at h
      subst h
      rw [decode_encodeB_relative bd (by omega) ifSet, show (4 * k + j) % 4 = j by omega,
        show (4 * k + j) / 4 = k by omega]
    · simp at h

theorem blt (k : Nat) (t : Target) : Statement (.blt k t) := fun _ h =>
  encodeField_decode true (by decide : 0 < 4) h

theorem ble (k : Nat) (t : Target) : Statement (.ble k t) := fun _ h =>
  encodeField_decode false (by decide : 1 < 4) h

theorem beq (k : Nat) (t : Target) : Statement (.beq k t) := fun _ h =>
  encodeField_decode true (by decide : 2 < 4) h

theorem bge (k : Nat) (t : Target) : Statement (.bge k t) := fun _ h =>
  encodeField_decode false (by decide : 0 < 4) h

theorem bgt (k : Nat) (t : Target) : Statement (.bgt k t) := fun _ h =>
  encodeField_decode true (by decide : 1 < 4) h

theorem bnl (k : Nat) (t : Target) : Statement (.bnl k t) := fun _ h =>
  encodeField_decode false (by decide : 0 < 4) h

theorem bne (k : Nat) (t : Target) : Statement (.bne k t) := fun _ h =>
  encodeField_decode false (by decide : 2 < 4) h

theorem bng (k : Nat) (t : Target) : Statement (.bng k t) := fun _ h =>
  encodeField_decode false (by decide : 1 < 4) h

theorem bun (k : Nat) (t : Target) : Statement (.bun k t) := fun _ h =>
  encodeField_decode true (by decide : 3 < 4) h

theorem bnu (k : Nat) (t : Target) : Statement (.bnu k t) := fun _ h =>
  encodeField_decode false (by decide : 3 < 4) h

end Sys2Proof.Laws.RoundTrip
end

