-- ==== Sys2Proof/Tests/Slice0.lean ====
section
/-! SUPPORT. Small tests. Expected results are from spec/95_test_vectors.md and the examples in the rules. -/

namespace Sys2Proof.Tests

open Sys2Proof.Machine

/-! ## Helpers -/

/-- The program of 95 section 2.6: three statements at 0x1000, 0x1004, 0x1008, END_ADDR = 0x100C. -/
def at3 (i : Instr) (fpscr cr : Word) : State :=
  { State.reset with
    fpscr := fpscr
    cr := cr
    pc := 0x1000#32
    text := [(0x1000, i), (0x1004, i), (0x1008, i)]
    endAddr := some 0x100C#32 }

def setup (s : State) (fx : FexReading) (xf : XferEffect) (vx msr : Bool) : State :=
  { s with
    msr20 := msr
    params := { s.params with fexReading := fx, xferEffect := xf, hasVxsoftVxsqrt := vx } }

def pcOf : Host.Outcome State Fault Refusal → Option Word
  | .next t => some t.pc
  | _ => none

def refusalIn : Host.Outcome State Fault Refusal → Option Refusal
  | .refused r => some r
  | _ => none

def faultIn : Host.Outcome State Fault Refusal → Option (List Exc × Word)
  | .fault (.floatingPointEnabledException ev pc _) => some (ev, pc)
  | _ => none

def regsOf (o : Host.Outcome State Fault Refusal) : Option (Word × Word) :=
  (stateLeft o).map fun t => (t.fpscr, t.cr)

def noOut : FpOut := ⟨[], none, none, none⟩

/-- A branch of the field 2 to 0x1008. -/
def to8 : Target := .addr 0x1008#32

/-! ## WellFormed refuses each ill-formed operand -/

theorem test_wf_admits : (Instr.fpscrToCr 4 7).wellFormed && (Instr.bta 31 4#32).wellFormed &&
    (Instr.blt 7 (.addr 0xFFFFFFFC#32)).wellFormed = true := by decide

theorem test_wf_refuses : [Instr.fpscrToCr 1 0, .fpscrToCr 5 0, .fpscrToCr 2 8, .bta 32 0#32, .bta 0 2#32,
    .bt 32 (.disp 0#14), .bt 0 (.addr 1#32), .blt 8 (.disp 0#14), .blt 0 (.addr 6#32), .ble 8 (.disp 0#14),
    .beq 8 (.disp 0#14), .bge 8 (.disp 0#14), .bgt 8 (.disp 0#14), .bnl 8 (.disp 0#14), .bne 8 (.disp 0#14),
    .bng 8 (.disp 0#14), .bun 8 (.disp 0#14), .bnu 8 (.disp 0#14)].all (fun i => !i.wellFormed) = true := by
  decide

/-! ## Decoding: words written out from 30_encoding.md R87 to R89 and 41_fpscr_to_cr.md R124 -/

theorem test_decode_set : decode (0b010000#6 ++ 0b01100#5 ++ 0b01000#5 ++ 0b00000000000010#14 ++ 0#1 ++ 0#1) =
      .instr (.blt 2 (.disp 2#14)) ∧
    decode (0b010000#6 ++ 0b01100#5 ++ 0b01001#5 ++ 0b00000000000010#14 ++ 0#1 ++ 0#1) =
      .instr (.bgt 2 (.disp 2#14)) ∧
    decode (0b010000#6 ++ 0b01101#5 ++ 0b01110#5 ++ 0b00000000000011#14 ++ 0#1 ++ 0#1) =
      .instr (.beq 3 (.disp 3#14)) ∧
    decode (0b010000#6 ++ 0b01100#5 ++ 0b10011#5 ++ 0b00000000000100#14 ++ 0#1 ++ 0#1) =
      .instr (.bun 4 (.disp 4#14)) := by decide

theorem test_decode_clear : decode (0b010000#6 ++ 0b00100#5 ++ 0b01000#5 ++ 0b00000000000010#14 ++ 0#1 ++ 0#1) =
      .instr (.bnl 2 (.disp 2#14)) ∧
    decode (0b010000#6 ++ 0b00100#5 ++ 0b01001#5 ++ 0b00000000000010#14 ++ 0#1 ++ 0#1) =
      .instr (.bng 2 (.disp 2#14)) ∧
    decode (0b010000#6 ++ 0b00101#5 ++ 0b01010#5 ++ 0b11111111111111#14 ++ 0#1 ++ 0#1) =
      .instr (.bne 2 (.disp 0x3FFF#14)) ∧
    decode (0b010000#6 ++ 0b00100#5 ++ 0b10011#5 ++ 0b00000000000010#14 ++ 0#1 ++ 0#1) =
      .instr (.bnu 4 (.disp 2#14)) := by decide

theorem test_decode_bta : decode (0b010000#6 ++ 0b01100#5 ++ 0b00111#5 ++ 0b00010000000011#14 ++ 1#1 ++ 0#1) =
      .instr (.bta 7 0x100C#32) ∧
    decode (0b010000#6 ++ 0b01100#5 ++ 0b11111#5 ++ 0b11111111111111#14 ++ 1#1 ++ 0#1) =
      .instr (.bta 31 0xFFFFFFFC#32) := by decide

/-- The words of `bt`, `ble` and `bge` are those of another row (R88). -/
theorem test_decode_shared : decodeTableWord 32 0x41870008 = some (.bun 1 (.disp 2#14)) ∧
    decodeTableWord 32 0x40890008 = some (.bng 2 (.disp 2#14)) ∧
    decodeTableWord 32 0x40880008 = some (.bnl 2 (.disp 2#14)) := by decide

/-- frD = 1, frA = 2, frB = 3, extended opcode 21, then the record bit (R89). -/
theorem test_decode_fadd :
    decode (63#6 ++ 1#5 ++ 2#5 ++ 3#5 ++ 0#5 ++ 21#5 ++ 0#1) =
      .instr (.fpinstr ⟨.other, 63#6 ++ 1#5 ++ 2#5 ++ 3#5 ++ 0#5 ++ 21#5⟩) ∧
    decode (63#6 ++ 1#5 ++ 2#5 ++ 3#5 ++ 0#5 ++ 21#5 ++ 1#1) =
      .instr (.fpinstrDot ⟨.other, 63#6 ++ 1#5 ++ 2#5 ++ 3#5 ++ 0#5 ++ 21#5⟩) := by decide

theorem test_decode_compare :
    decode 0xFD011000#32 = .instr (.fpinstr ⟨.compare, 0x7E808800#31⟩) ∧
    decode 0xFD011040#32 = .instr (.fpinstr ⟨.compareOrdered, 0x7E808820#31⟩) ∧
    compareField (.fpinstr ⟨.compareOrdered, 0x7E808820#31⟩) = some 2 ∧
    decode 0xFD011001#32 = .reject .notInSpec := by decide

/-- fneg f1, f3 (opcode 63, extended opcode 40): a move (log 31). -/
theorem test_decode_fneg : decode (63#6 ++ 1#5 ++ 0#5 ++ 3#5 ++ 40#10 ++ 0#1) =
    .instr (.fpinstr ⟨.move, 63#6 ++ 1#5 ++ 0#5 ++ 3#5 ++ 40#10⟩) := by decide

theorem test_decode_fpscr : decode (63#6 ++ 2#3 ++ 0#2 ++ 4#3 ++ 0#2 ++ 0#5 ++ 64#10 ++ 0#1) =
      .instr (.fpscrToCr 2 4) ∧
    decode 0xFDFE0D8E#32 = .instr (.mtfsf 0xFF#8 1#5 false) ∧
    decode (63#6 ++ 1#5 ++ 0#5 ++ 0#5 ++ 583#10 ++ 0#1) = .reject .notSpecified := by decide

/-- `bl`-like and foreign words (95 section 2.6). -/
theorem test_decode_rejects : [0x48000000#32, 0x41880009#32, 0x4088000A#32, 0x42000008#32, 0x7C000214#32,
    0x80000000#32].all (fun w => decide (decode w = .reject .notInSpec)) = true := by decide

theorem test_encode : encode (.bne 2 (.disp 0x3FFF#14)) = some 0x408AFFFC#32 ∧
    encode (.ble 2 (.disp 2#14)) = some 0x40890008#32 ∧
    encode (.bta 7 0x100C#32) = some 0x4187100E#32 ∧
    encode (.fpscrToCr 2 4) = some 0xFD100080#32 ∧
    encode (.fpinstrDot ⟨.other, 0x7E110C15#31⟩) = some 0xFC22182B#32 := by decide

/-! ## Record (95 section 2.1): before, answer, after under each FEX_READING -/

def recordVectors : List (Word × FpOut × Word × Word) :=
  [(0x00000000#32, ⟨[.xx], some false, some true, none⟩, 0x82020000#32, 0x82020000#32),
   (0x00000000#32, ⟨[.ox, .xx], none, some true, none⟩, 0x92020000#32, 0x92020000#32),
   (0x82020000#32, ⟨[], some false, some false, none⟩, 0x82000000#32, 0x82000000#32),
   (0x00000000#32, ⟨[.vxzdz], none, none, none⟩, 0xA0200000#32, 0xA0200000#32),
   (0x20000000#32, noOut, 0x00000000#32, 0x00000000#32),
   (0x00000008#32, ⟨[.xx], none, none, none⟩, 0xC2000008#32, 0xC2000008#32),
   (0x00000008#32, ⟨[.ox], none, none, none⟩, 0xD0000008#32, 0x90000008#32),
   (0x00000010#32, ⟨[.zx], none, none, none⟩, 0xC4000010#32, 0xC4000010#32)] ++
  [(0x00000000#32, ⟨[], none, none, some 0b00100#5⟩, 0x00004000#32, 0x00004000#32),
   (0x00004000#32, ⟨[], none, none, some 0b10010#5⟩, 0x00012000#32, 0x00012000#32),
   (0x000000F3#32, ⟨[.ux], none, none, none⟩, 0xC80000F3#32, 0xC80000F3#32),
   (0x00000080#32, ⟨[.vxsnan, .vxvc], none, none, none⟩, 0xE1080080#32, 0xE1080080#32),
   (0x00000080#32, ⟨[.xx], none, none, none⟩, 0xC2000080#32, 0x82000080#32),
   (0x00000400#32, noOut, 0x00000400#32, 0x00000400#32)]

theorem test_record_vectors : recordVectors.all (fun v =>
    let p := Params.reset
    decide (record p true v.1 v.2.1 = v.2.2.1 ∧
      record { p with fexReading := .enabledExceptionOccurred } true v.1 v.2.1 = v.2.2.2)) = true := by decide +kernel

/-- V16 with bits 21 and 22 implemented, and V10: bit 0 is free when the inexact exception recurs. -/
theorem test_record_vx_and_free :
    record { Params.reset with hasVxsoftVxsqrt := true } true 0x00000400#32 noOut = 0x20000400#32 ∧
    record Params.reset true 0x02000000#32 ⟨[.xx], none, none, none⟩ = 0x82000000#32 ∧
    record Params.reset false 0x02000000#32 ⟨[.xx], none, none, none⟩ = 0x02000000#32 := by decide +kernel

/-- V2 and V4: the dot form writes CR1, over old ones too. -/
theorem test_fpinstrDot_cr1 :
    regsOf (completeFp true ⟨[.ox, .xx], none, some true, none⟩ (at3 (.fpscrToCr 2 0) 0#32 0x0F000000#32)) =
      some (0x92020000#32, 0x09000000#32) ∧
    regsOf (completeFp true ⟨[.vxzdz], none, none, none⟩ (at3 (.fpscrToCr 2 0) 0#32 0#32)) =
      some (0xA0200000#32, 0x0A000000#32) := by decide +kernel

/-- V1: the plain form leaves the Condition Register and goes on. -/
theorem test_fpinstr_plain :
    regsOf (completeFp false ⟨[.xx], some false, some true, none⟩ (at3 (.fpscrToCr 2 0) 0#32 0#32)) =
      some (0x82020000#32, 0#32) ∧
    pcOf (completeFp false ⟨[.xx], none, none, none⟩ (at3 (.fpscrToCr 2 0) 0#32 0#32)) = some 0x1004#32 := by
  decide +kernel

/-- V8, V9 and V14: recorded first, then the fault carrying all of ev; no fault with the MSR bits clear. -/
theorem test_trap :
    let s := at3 (.fpscrToCr 2 0) 0x00000010#32 0#32
    let on := setup s .sourceLiteral .keep false true
    let o := completeFp true ⟨[.zx], none, none, none⟩ on
    let v := setup (at3 (.fpscrToCr 2 0) 0x00000080#32 0#32) .sourceLiteral .keep false true
    faultIn o = some ([.zx], 0x1000#32) ∧ regsOf o = some (0xC4000010#32, 0x0C000000#32) ∧
      pcOf (completeFp true ⟨[.zx], none, none, none⟩ s) = some 0x1004#32 ∧
      faultIn (completeFp true ⟨[.vxsnan, .vxvc], none, none, none⟩ v) =
        some ([.vxsnan, .vxvc], 0x1000#32) := by decide +kernel

/-- V18: a pending enabled exception at launch. -/
theorem test_pending : refusalIn (step (setup (at3 (.fpscrToCr 2 0) 0x04000010#32 0#32) .sourceLiteral .keep
    false true)) = some .pendingEnabledException := by decide

theorem test_mtfsf : refusalIn (step (at3 (.mtfsf 0xFF#8 1#5 false) 0#32 0#32)) = some .notSpecified := by decide

/-! ## `<fpscr-to-cr>` (95 section 2.3) -/

/-- Statement, FPSCR and CR before, CR after, FPSCR after under keep and under clear_copied_status. -/
def xferVectors : List (Nat × Nat × Word × Word × Word × Word × Word) :=
  [(2, 4, 0x00004000#32, 0#32, 0x00400000#32, 0x00004000#32, 0x00004000#32),
   (3, 0, 0x92020000#32, 0#32, 0x00090000#32, 0x92020000#32, 0x02020000#32),
   (4, 2, 0xA0200000#32, 0#32, 0x00002000#32, 0xA0200000#32, 0x80000000#32),
   (2, 6, 0x400000F3#32, 0#32, 0x00F00000#32, 0x400000F3#32, 0x400000F3#32),
   (2, 4, 0#32, 0xFFFFFFFF#32, 0xFF0FFFFF#32, 0#32, 0#32),
   (4, 4, 0x00001000#32, 0x00400000#32, 0x00401000#32, 0x00001000#32, 0x00001000#32)]

theorem test_fpscrToCr_vectors : xferVectors.all (fun (f, src, fpscr, cr, cr', keep, clear) =>
    let s := at3 (.fpscrToCr f src) fpscr cr
    decide (regsOf (step s) = some (keep, cr') ∧
      regsOf (step (setup s .sourceLiteral .clearCopiedStatus false false)) = some (clear, cr'))) = true := by
  decide +kernel

theorem test_fpscrToCr_refused :
    refusalIn (step (at3 (.fpscrToCr 1 0) 0#32 0#32)) = some .fieldOutsideSource ∧
    refusalIn (step (at3 (.fpscrToCr 5 4) 0#32 0#32)) = some .fieldOutsideSource := by decide

/-! ## Branches (95 sections 2.4 to 2.6) -/

/-- Field values 0000 to 1111, and for each whether blt, ble, beq, bge, bgt, bnl, bne, bng, bun, bnu is taken
and whether ble and bge are under single_bit: the table of section 2.4, 1 for T. -/
def truthTable : List (BitVec 12) :=
  [0b000001110111#12, 0b000001111011#12, 0b011101010111#12, 0b011101011011#12,
   0b000111100101#12, 0b000111101001#12, 0b011111000101#12, 0b011111001001#12] ++
  [0b110000110110#12, 0b110000111010#12, 0b111100010110#12, 0b111100011010#12,
   0b110110100100#12, 0b110110101000#12, 0b111110000100#12, 0b111110001000#12]

def takenOn (i : Instr) (r : LeGeReading) (v : Nat) : Bool :=
  pcOf (exec i (withReading (at3 i 0#32 (BitVec.ofNat 32 (v <<< 20))) r)) == some 0x1008#32

def takenRow (v : Nat) : List Bool :=
  [Instr.blt 2 to8, .ble 2 to8, .beq 2 to8, .bge 2 to8, .bgt 2 to8, .bnl 2 to8, .bne 2 to8, .bng 2 to8,
    .bun 2 to8, .bnu 2 to8].map (fun i => takenOn i .sourceLiteral v) ++
  [Instr.ble 2 to8, .bge 2 to8].map (fun i => takenOn i .singleBit v)

theorem test_branch_truth_table :
    (List.range 16).map takenRow = truthTable.map (fun row => (List.range 12).map row.getMsbD) := by decide

/-- Placement of fields and bits in the register. -/
theorem test_branch_placement :
    takenOn (.beq 3 to8) .sourceLiteral 0 = false ∧
    pcOf (step (at3 (.beq 3 to8) 0#32 0x00020000#32)) = some 0x1008#32 ∧
    pcOf (step (at3 (.bun 4 to8) 0#32 0x00001000#32)) = some 0x1008#32 ∧
    pcOf (step (at3 (.blt 1 to8) 0#32 0x09000000#32)) = some 0x1008#32 ∧
    pcOf (step (at3 (.blt 3 to8) 0#32 0x00800000#32)) = some 0x1004#32 := by decide

theorem test_bta :
    [(0, 0x80000000#32, true), (6, 0x02000000#32, true), (7, 0x02000000#32, false), (31, 0x00000001#32, true),
      (0, 0x00000001#32, false), (8, 0x00800000#32, true), (4, 0x0C000000#32, true)].all (fun (b, cr, tk) =>
      pcOf (step (at3 (.bta b 0x1008#32) 0#32 cr)) == some (if tk then 0x1008#32 else 0x1004#32)) = true := by
  decide

theorem test_bt :
    pcOf (step (at3 (.bt 5 to8) 0#32 0x0C000000#32)) = some 0x1008#32 ∧
    pcOf (step (at3 (.bt 5 (.disp 0x3FFF#14)) 0#32 0x0C000000#32)) = none := by decide

theorem test_branch_operands_refused :
    refusalIn (step (at3 (.blt 8 to8) 0#32 0#32)) = some .notInSpec ∧
    refusalIn (step (at3 (.bta 32 0x1008#32) 0#32 0#32)) = some .notInSpec ∧
    refusalIn (step { at3 (.blt 1 to8) 0#32 0x09000000#32 with
      params := { Params.reset with branchFields := .twoToFour } }) = some .notInSpec := by decide

theorem test_branch_targets :
    let go := fun (a cr : Word) => step (at3 (.beq 2 (.addr a)) 0#32 cr)
    pcOf (go 0x100C#32 0x00200000#32) = some 0x100C#32 ∧ pcOf (go 0x1000#32 0x00200000#32) = some 0x1000#32 ∧
      refusalIn (go 0x1006#32 0x00200000#32) = some .misalignedTarget ∧
      refusalIn (go 0x2000#32 0x00200000#32) = some .targetOutsideProgram ∧
      pcOf (go 0x2000#32 0#32) = some 0x1004#32 := by decide

/-! ## The step -/

/-- A loaded word runs as the first instruction after reset: taken branches to itself, and not taken. -/
theorem test_loaded_word_runs :
    [0x41800000, 0x41810000, 0x41820000, 0x41830000, 0x41800002, 0xFD100080, 0xFC22182A, 0xFC22182B].all
      (fun w => pcOf (step (State.reset.withFetchWord 32 w)) == some 4#32) = true ∧
    [0x40800000, 0x40810000, 0x40820000, 0x40830000].all
      (fun w => pcOf (step (State.reset.withFetchWord 32 w)) == some 0#32) = true := by decide

/-- An FPSCR-manipulating word and a foreign word (95 section 2.6), the end of the run, and the empty reset. -/
theorem test_step_refusals :
    refusalIn (step (State.reset.withFetchWord 32 0xFC20048E)) = some .notSpecified ∧
    refusalIn (step (State.reset.withFetchWord 32 0x48000000)) = some .notInSpec ∧
    refusalIn (step { at3 (.bta 0 0#32) 0#32 0#32 with pc := 0x100C#32 }) = some .programEnded ∧
    refusalIn (step State.reset) = some .pcOutsideProgram := by decide

/-! ## Witnesses: a state and operands that meet each statement's hypotheses -/

/-- The four-byte program of one word at 0x1000. -/
def bytesAt (w : Word) : State :=
  { at3 (.bta 0 0#32) 0#32 0#32 with text := [], mem := writeBytes [] 0x1000 (wordBytes w) }

/-- 41_fpscr_to_cr.md R124: `fcmpu 2` also stores FPSCR bits 16 to 19, unordered in the last case, in field 2
alone; R122: `fcmpu 1` is refused. -/
theorem test_compare_word_stores : regsOf (execWord (.fpinstr ⟨.compare, 0x7E808800#31⟩)
      (at3 (.bta 0 0#32) 0#32 0#32)) =
    (stateLeft (exec (.fpinstr ⟨.compare, 0x7E808800#31⟩) (at3 (.bta 0 0#32) 0#32 0#32))).map
      (fun t => (t.fpscr, copyField 0#32 2 t.fpscr 4)) ∧
    refusalIn (execWord (.fpinstr ⟨.compare, 0x7E408800#31⟩) (at3 (.bta 0 0#32) 0#32 0#32)) =
      some .fieldOutsideSource ∧
    regsOf (alsoStoreCompare 2 (.next (at3 (.bta 0 0#32) 0x00001000#32 0xFFFFFFFF#32))) =
      some (0x00001000#32, 0xFF1FFFFF#32) := ⟨rfl, by decide, by decide⟩

/-- 30_encoding.md R84, R88: the word of `bt 5` runs as `bt` where the field branches stop at {2,3,4}; as a
statement of the text `bgt 1` is refused there. -/
theorem test_bt_word_strict_fields :
    let strict := { Params.reset with branchFields := .twoToFour }
    pcOf (step { bytesAt 0x41850008#32 with
      params := strict, cr := 0x04000000#32, text := [(0x1008, .bta 0 0#32)] }) = some 0x1008#32 ∧
    refusalIn (step { at3 (.bgt 1 to8) 0#32 0x04000000#32 with params := strict }) = some .notInSpec := by decide

theorem witness_EncodeOfDecodeRestoresTheWord :
    decode 0x41A80008#32 = .instr (.blt 2 (.disp 2#14)) ∧
      decode 0xFC22182B#32 = .instr (.fpinstrDot ⟨.other, 0x7E110C15#31⟩) := by decide

theorem witness_DecodeOfEncodeIsTheCanonicalInstruction :
    encode (.bt 31 (.disp 0x3FFF#14)) = some 0x419FFFFC#32 := by decide

theorem witness_EveryAdmittedOperandHasAWord :
    fpRowOf 0xFC22182B#32 = some ⟨0xFC0007FE#32, 0xFC00002A#32, .other, true⟩ := by decide

theorem witness_HintBitDoesNotChangeTheInstruction : insnBits 0x41A80008#32 0 5 = 16#6 := by decide

theorem witness_BranchFormsOutsideTheTableAreRejected :
    insnBits 0x41880009#32 0 5 = 16#6 ∧ insnBits 0x41880009#32 31 31 = 1#1 ∧
    insnBits 0x4088000A#32 0 5 = 16#6 ∧ insnBits 0x4088000A#32 6 9 = 0b0010#4 ∧
      insnBits 0x4088000A#32 30 30 = 1#1 ∧
    insnBits 0x42000008#32 0 5 = 16#6 ∧ insnBits 0x42000008#32 6 9 ≠ 0b0110#4 ∧
      insnBits 0x42000008#32 6 9 ≠ 0b0010#4 := by decide

theorem witness_DecodedOperandsAreInRange :
    decode 0xFF9C0080#32 = .instr (.fpscrToCr 7 7) ∧ decode 0x419FFFFE#32 = .instr (.bta 31 0xFFFFFFFC#32) := by
  decide

theorem witness_StepRunsTheStatementAtThePc :
    let s := at3 (.blt 2 to8) 0#32 0#32
    NoPendingEnabledException s ∧ s.endAddr ≠ some s.pc ∧ aligned s.pc = true ∧
      entryAt s.text s.pc.toNat = some (.blt 2 to8) := by decide

theorem witness_StepRunsTheDecodedInstruction :
    let s := bytesAt 0x41880008#32
    NoPendingEnabledException s ∧ s.endAddr ≠ some s.pc ∧ aligned s.pc = true ∧
      entryAt s.text s.pc.toNat = none ∧
      readInsnBytes s.mem s.pc.toNat = some [0x41#8, 0x88#8, 0x00#8, 0x08#8] ∧
      (decodeBytes [0x41#8, 0x88#8, 0x00#8, 0x08#8]).1 = .instr (.blt 2 (.disp 2#14)) ∧
      (compareField (.bnl 7 (.disp 2#14)) = none ∧ admittedRow s.params (.blt 7 to8) = .blt 7 to8) ∧
      admitsField { Params.reset with branchFields := .twoToFour } 7 = false ∧
      compareField (.fpinstr ⟨.compare, 0x7FFFFFFF#31⟩) = some 7 ∧
      compareField (.fpinstr ⟨.compareOrdered, 0x7F008820#31⟩) = some 4 := by decide

theorem witness_StepRefusesWordsOfNoRow :
    let s := bytesAt 0xFC20048E#32
    let r := bytesAt 0x48000000#32
    (insnBits 0xFC20048E#32 0 5 = 63#6 ∧ (insnBits 0xFC20048E#32 21 30).toNat = 583) ∧
    NoPendingEnabledException s ∧ s.endAddr ≠ some s.pc ∧ aligned s.pc = true ∧
      entryAt s.text s.pc.toNat = none ∧
      readInsnBytes s.mem s.pc.toNat = some [0xFC#8, 0x20#8, 0x04#8, 0x8E#8] ∧
      (decodeBytes [0xFC#8, 0x20#8, 0x04#8, 0x8E#8]).1 = .reject .notSpecified ∧
      readInsnBytes r.mem r.pc.toNat = some [0x48#8, 0#8, 0#8, 0#8] ∧
      (decodeBytes [0x48#8, 0#8, 0#8, 0#8]).1 = .reject .notInSpec := by decide

theorem witness_StepRefusesAPcOutsideTheProgram :
    let s := { at3 (.bta 0 0#32) 0#32 0#32 with pc := 0x1002#32 }
    let r := { at3 (.bta 0 0#32) 0#32 0#32 with pc := 0x1010#32 }
    NoPendingEnabledException s ∧ s.endAddr ≠ some s.pc ∧ aligned s.pc = false ∧
      NoPendingEnabledException r ∧ r.endAddr ≠ some r.pc ∧ aligned r.pc = true ∧
      holdsStatement r r.pc = false := by decide

theorem witness_StepEndsAtEndAddr :
    let s := { at3 (.bta 0 0#32) 0#32 0#32 with pc := 0x100C#32 }
    NoPendingEnabledException s ∧ Final s := by decide

theorem witness_PendingEnabledExceptionIsRefusedAndNeverMade :
    ¬ NoPendingEnabledException
        (setup (at3 (.fpscrToCr 2 0) 0x04000010#32 0#32) .sourceLiteral .keep false true) ∧
    let s := setup (at3 (.fpscrToCr 2 1) 0x04000008#32 0#32) .sourceLiteral .clearCopiedStatus false true
    NoPendingEnabledException s ∧ (pcOf (exec (.fpscrToCr 2 1) s)).isSome = true := by decide

/-- Each kind of comparison, its word, and the field it names at both ends of the range. -/
theorem witness_ComparisonLeavesOneOfFourBits :
    (⟨.compare, 0x7E808800#31⟩ : FpOp).kind = .compare ∧
      0xFF811000#32 &&& 0xFC6007FF#32 = 0xFC000000#32 ∧ 0xFC011040#32 &&& 0xFC6007FF#32 = 0xFC000040#32 ∧
      compareField (.fpinstr ⟨.compare, insnBits 0xFF811000#32 0 30⟩) = some 7 ∧
      compareField (.fpinstr ⟨.compareOrdered, insnBits 0xFC011040#32 0 30⟩) = some 0 ∧
      compareField (.fpinstr ⟨.compare, insnBits 0xFD011000#32 0 30⟩) = some 2 ∧
      compareField (.fpinstr ⟨.compare, insnBits 0xFE011000#32 0 30⟩) = some 4 := by decide

theorem witness_SignalingNanExclusion :
    exemptFromSnan .load = true ∧ exemptFromSnan .select = true ∧ exemptFromSnan .compare = false ∧
      exemptFromSnan .other = false ∧
      (stateLeft (exec (fpForm true ⟨.move, 0#31⟩) State.reset)).isSome = true := by decide

/-- A FPSCR that differs in every bit the numerics function does not read. -/
theorem witness_NumericsReadOnlyRoundingAndEnables :
    ∀ i, (24 ≤ i ∧ i ≤ 28) ∨ i = 30 ∨ i = 31 → regBit 0xFFFFFF04#32 i = regBit 0#32 i := by
  intro i h
  rcases h with ⟨h1, h2⟩ | rfl | rfl
  · interval_cases i <;> decide
  · decide
  · decide

theorem witness_DotChangesNothingInTheFpscr :
    let op : FpOp := ⟨.other, 0x7E110C15#31⟩
    (stateLeft (exec (.fpinstr op) State.reset)).isSome = true ∧
      (stateLeft (exec (.fpinstrDot op) State.reset)).isSome = true := by decide

/-- Both ways to have no enabled exception: the MSR bits clear, or the enables clear. -/
theorem witness_PlainFormCompletes :
    State.reset.msr20 = false ∧ State.reset.msr23 = false ∧
      ∀ i, 24 ≤ i → i ≤ 28 → regBit ({ State.reset with msr20 := true }).fpscr i = false :=
  ⟨rfl, rfl, fun i _ _ => by simp [State.reset, regBit]⟩

theorem witness_DotFormCompletes :
    State.reset.msr20 = false ∧ State.reset.msr23 = false ∧
      ∀ i, 24 ≤ i → i ≤ 28 → regBit ({ State.reset with msr23 := true }).fpscr i = false :=
  ⟨rfl, rfl, fun i _ _ => by simp [State.reset, regBit]⟩

theorem witness_EnabledExceptionFaultsAfterRecording :
    let s := { at3 (.bta 0 0#32) 0x00000010#32 0#32 with msr23 := true }
    (s.msr20 = true ∨ s.msr23 = true) ∧
      (∃ e ∈ (⟨[.zx], none, none, none⟩ : FpOut).ev, regBit s.fpscr (enableBit e) = true) ∧
      ∀ e ∈ (⟨[.xx], none, none, none⟩ : FpOut).ev, regBit s.fpscr (enableBit e) = false := by decide

theorem witness_NothingElseFaults :
    State.reset.msr20 = false ∧ State.reset.msr23 = false ∧ ∀ dot op, Instr.fpscrToCr 2 0 ≠ fpForm dot op :=
  ⟨rfl, rfl, fun dot op => by cases dot <;> simp [fpForm]⟩

theorem witness_FpscrToCrCopiesOneField : (2 ≤ 2 ∧ 2 ≤ 4 ∧ 0 < 8) ∧ (2 ≤ 4 ∧ 4 ≤ 4 ∧ 7 < 8) := by decide

theorem witness_FpscrAfterFpscrToCr :
    let s := at3 (.fpscrToCr 4 7) 0#32 0#32
    let c := setup s .sourceLiteral .clearCopiedStatus false false
    (pcOf (exec (.fpscrToCr 4 7) s)).isSome = true ∧ s.params.xferEffect = .keep ∧
      (pcOf (exec (.fpscrToCr 4 7) c)).isSome = true ∧ c.params.xferEffect = .clearCopiedStatus := by decide

theorem witness_FpscrToCrRefusesOtherFields :
    (1 < 2 ∨ 4 < 1) ∧ (5 < 2 ∨ 4 < 5) ∧ 2 ≤ 2 ∧ 2 ≤ 4 ∧ 4 ≤ 4 ∧ 8 ≤ 8 := by decide

theorem witness_StoredFieldIsWhatTheBranchTests :
    let s := at3 (.fpscrToCr 4 4) 0x00004000#32 0#32
    (pcOf (exec (.fpscrToCr 4 4) s)).isSome = true ∧ admitsField s.params 4 = true ∧
      TargetAdmitted s 0x100C#32 := by decide

theorem witness_DotFormThenBitBranchTestsStatus :
    let s := at3 (.fpinstrDot ⟨.other, 0#31⟩) 0#32 0#32
    (pcOf (exec (.fpinstrDot ⟨.other, 0#31⟩) s)).isSome = true ∧ 3 < 4 ∧ TargetAdmitted s 0x1000#32 := by decide

/-- Field 7, all bits set and all bits clear, with a target of the program. -/
theorem witness_field_branches :
    let s := at3 (.blt 7 to8) 0#32 0xFFFFFFFF#32
    let z := at3 (.blt 7 to8) 0#32 0#32
    admitsField s.params 7 = true ∧ TargetAdmitted s (branchTarget s.pc to8) ∧
      (∀ j < 4, regBit s.cr (4 * 7 + j) = true) ∧
      admitsField z.params 7 = true ∧ TargetAdmitted z (branchTarget z.pc to8) ∧
      ∀ j < 4, regBit z.cr (4 * 7 + j) = false := by decide

/-- For `bta` and `bt`: bit 31, set and clear, with a target of the program. -/
theorem witness_BranchesOnASetBit :
    let s := at3 (.bta 31 0x100C#32) 0#32 0x00000001#32
    31 < 32 ∧ regBit s.cr 31 = true ∧ TargetAdmitted s 0x100C#32 ∧ regBit s.cr 0 = false ∧
      encode (.bt 31 (.disp 1#14)) = some 0x419F0004#32 ∧
      decode 0x419F0004#32 = .instr (.bun 7 (.disp 1#14)) := by decide

theorem witness_readings :
    let s := at3 (.ble 0 to8) 0#32 0#32
    admitsField s.params 0 = true ∧ (withReading s .sourceLiteral).params.leGeReading = .sourceLiteral ∧
      (withReading s .singleBit).params.leGeReading = .singleBit := by decide

/-- Values off the lists and on them, under both readings, for `ble` and `bge`. -/
theorem witness_ReadingsOnFieldValues :
    let off := at3 (.ble 2 to8) 0#32 0x00200000#32
    let on := at3 (.ble 2 to8) 0#32 0x00100000#32
    fieldValue off.cr 2 = 2 ∧ fieldValue on.cr 2 = 1 ∧ admitsField on.params 2 = true ∧
      [Instr.ble 2 to8, .bge 2 to8].all (fun i =>
        (pcOf (exec i (withReading off .sourceLiteral))).isSome &&
          (pcOf (exec i (withReading on .sourceLiteral))).isSome &&
          (pcOf (exec i (withReading on .singleBit))).isSome) = true := by decide

theorem witness_BadTargetsAreRefusedWhenTaken :
    let s := at3 (.bta 0 0#32) 0#32 0x80000000#32
    branchTest s (.bta 0 0x1006#32) = some (true, .addr 0x1006#32) ∧ aligned 0x1006#32 = false ∧
      branchTest s (.bta 0 0x2000#32) = some (true, .addr 0x2000#32) ∧ aligned 0x2000#32 = true ∧
      holdsStatement s 0x2000#32 = false ∧ s.endAddr ≠ some 0x2000#32 ∧
      branchTest s (.bta 1 0x2000#32) = some (false, .addr 0x2000#32) := by decide

theorem witness_OperandsOutOfRangeAreRefused :
    admitsField State.reset.params 8 = false ∧
      admitsField { Params.reset with branchFields := .twoToFour } 5 = false ∧ 32 ≤ 32 := by decide

/-- A value of each list of R144, in an admitted field with an admitted target. -/
theorem witness_ReadingsDifferOnTheListedValues :
    let s := at3 (.ble 0 to8) 0#32 0x06F1CAB7#32
    (fieldValue s.cr 1, fieldValue s.cr 2, fieldValue s.cr 3, fieldValue s.cr 5, fieldValue s.cr 0) =
        (6, 15, 1, 10, 0) ∧
      (∀ k < 8, admitsField (withReading s .singleBit).params k = true) ∧
      TargetAdmitted (withReading s .sourceLiteral) (branchTarget s.pc to8) := by decide

/-- A taken and an untaken branch, for the statements about a branch's next state. -/
theorem witness_branch_next :
    let s := at3 (.bgt 2 to8) 0#32 0x00400000#32
    isBranch (.bgt 2 to8) = true ∧ isBranch (.bng 2 to8) = true ∧
      pcOf (exec (.bgt 2 to8) s) = some 0x1008#32 ∧ pcOf (exec (.bng 2 to8) s) = some 0x1004#32 := by decide

theorem witness_OneHotFieldDecidesTheBranches :
    (admitsField Params.reset 2 = true ∧ Params.reset.leGeReading = .sourceLiteral) ∧
      fieldValue 0x00800000#32 2 = 8 ∧ fieldValue 0x00400000#32 2 = 4 ∧ fieldValue 0x00200000#32 2 = 2 ∧
      fieldValue 0x00100000#32 2 = 1 ∧ TargetAdmitted (at3 (.blt 2 to8) 0#32 0#32) 0x1008#32 := by decide

/-- One instruction of each kind that goes on, for the statements about every instruction; the registers it
may write do change. -/
theorem witness_every_instruction_next :
    let s := at3 (.fpscrToCr 2 4) 0x0000C000#32 0#32
    (pcOf (exec (.fpscrToCr 2 4) s)).isSome = true ∧ s.params.xferEffect = .keep ∧
      (pcOf (exec (.fpinstrDot ⟨.other, 0#31⟩) s)).isSome = true ∧
      regsOf (exec (.fpscrToCr 2 4) s) = some (0x0000C000#32, 0x00C00000#32) ∧
      SummaryConsistent s := by decide

/-- A status bit that is set, for the statement that they only rise. -/
theorem witness_StatusBitsOnlyRise :
    let s := at3 (.fpscrToCr 2 1) 0x84000000#32 0#32
    s.params.xferEffect = .keep ∧ (pcOf (exec (.fpscrToCr 2 1) s)).isSome = true ∧
      regBit s.fpscr (statusBit .zx) = true := by decide

/-- A dot form that writes CR1 and keeps the rest (R115), on a full register. -/
theorem witness_WritersOfTheConditionRegister :
    let s := at3 (.fpscrToCr 4 0) 0#32 0xFFFFFFFF#32
    regsOf (exec (.fpscrToCr 4 0) s) = some (0#32, 0xFFFF0FFF#32) ∧
      regsOf (step s) = some (0#32, 0xFFFF0FFF#32) ∧
      fetch (bytesAt 0xFD011000#32) = .word (.fpinstr ⟨.compare, 0x7E808800#31⟩) ∧
      (pcOf (step (bytesAt 0xFD011000#32))).isSome = true ∧
      regsOf (completeFp true noOut s) = some (0#32, 0xF0FFFFFF#32) := by decide +kernel

theorem witness_StepKeepsTheInvariant :
    let s := at3 (.blt 2 to8) 0#32 0x00800000#32
    Memory.wf s.mem = true ∧ Text.wf s.text = true ∧ aligned s.pc = true ∧ NoPendingEnabledException s ∧
      SummaryConsistent s ∧ pcOf (step s) = some 0x1008#32 := by decide

theorem witness_RunsWithMsrClearNeverFault :
    let s := at3 (.blt 2 to8) 0#32 0x00800000#32
    s.msr20 = false ∧ s.msr23 = false ∧ pcOf (Sys2Proof.core.run 2 s) = some 0x1008#32 := by
  refine ⟨rfl, rfl, ?_⟩
  decide

end Sys2Proof.Tests
end

section
/-! PROOFS. Floating-point instructions: the signaling-NaN rule, the copy into CR1, the Condition Register's
frame, and the refusal of `mtfsf` (40_fp_instructions.md R101, R107, R112, R115). -/

namespace Sys2Proof.Machine

/-! ## mtfsf -/

/-- `mtfsf` has no effect in the spec (R112). -/
theorem exec_mtfsf (fm : BitVec 8) (frB : BitVec 5) (rc : Bool) (s : State) :
    exec (.mtfsf fm frB rc) s = .refused .notSpecified := rfl

/-- Settles O33. -/
theorem mtfsfIsNotSpecified : Obligations.MtfsfIsNotSpecified := exec_mtfsf

/-! ## The signaling-NaN rule -/

theorem exemptFromSnan_iff (kind : FpKind) :
    exemptFromSnan kind = true ↔ kind ∈ [.load, .store, .move, .select] := by
  cases kind <;> decide

/-- When the signaling-NaN exception is among the events: never in an exempt class, and otherwise for such an
operand or by the free answer (R107). -/
theorem vxsnan_mem_conformOut (p : Params) (kind : FpKind) (snan nan : Bool) (raw : FpRaw) :
    .vxsnan ∈ (conformOut p kind snan nan raw).ev ↔
      exemptFromSnan kind = false ∧ (snan = true ∨ .vxsnan ∈ raw.ev) := by
  have himpl : .vxsnan ∈ excs p := mem_excs.mpr rfl
  simp [conformOut, List.mem_filter, himpl]

/-- Settles O22: the rule on `conformOut`, to which every answer `fpOut` is held, and the refusal of `mtfsf`. -/
theorem signalingNanExclusion : Obligations.SignalingNanExclusion := by
  refine ⟨exemptFromSnan_iff, ?exempt, ?others, fun op s => ⟨_, rfl⟩, ?mtfsf⟩
  case exempt =>
    intro p kind snan nan raw hkind hmem
    obtain ⟨hnot, -⟩ := (vxsnan_mem_conformOut p kind snan nan raw).mp hmem
    simp [hkind] at hnot
  case others =>
    intro p kind nan raw hkind
    exact (vxsnan_mem_conformOut p kind true nan raw).mpr ⟨hkind, .inl rfl⟩
  case mtfsf =>
    intro fm frB rc s r
    simp [exec_mtfsf]

/-! ## The Condition Register -/

/-- The Condition Register a floating-point instruction leaves, going on or faulting: with CR1 copied from the
FPSCR it leaves for a dot form, as it was for the plain one. -/
theorem stateLeft_fpForm_cr (dot : Bool) (op : FpOp) (s : State) :
    ∃ t, stateLeft (exec (fpForm dot op) s) = some t ∧
      t.cr = if dot then copyField s.cr 1 t.fpscr 0 else s.cr := by
  obtain ⟨t, hleft, hrec⟩ := stateLeft_fpForm dot op s
  have hcr := congrArg State.cr hrec
  have hfpscr := congrArg State.fpscr hrec
  rw [State.withPc_cr, recordStatus_cr] at hcr
  rw [State.withPc_fpscr, recordStatus_fpscr] at hfpscr
  exact ⟨t, hleft, by rw [hcr, hfpscr]⟩

/-- Settles O26, from the copy into CR1 bit by bit. -/
theorem dotFormCopiesStatusIntoCr1 : Obligations.DotFormCopiesStatusIntoCr1 := by
  intro op s
  obtain ⟨t, hleft, hcr⟩ := stateLeft_fpForm_cr true op s
  have hcopy : ∀ j < 4, regBit t.cr (4 + j) = regBit t.fpscr j := fun j hj => by
    rw [hcr, if_pos rfl, regBit_copyField_cr1 _ _ hj]
  exact ⟨t, hleft, hcopy 0 (by decide), hcopy 1 (by decide), hcopy 2 (by decide), hcopy 3 (by decide)⟩

/-- Settles O27: the plain form has no copy, and the dot form's copy is inside field 1. -/
theorem floatingPointWritesNoFieldButCr1 : Obligations.FloatingPointWritesNoFieldButCr1 := by
  refine ⟨stateLeft_fpForm_cr false, fun op s => ?_⟩
  obtain ⟨t, hleft, hcr⟩ := stateLeft_fpForm_cr true op s
  refine ⟨t, hleft, fun i hi => ?_⟩
  rw [hcr, if_pos rfl, regBit_copyField_outside _ _ _ hi]

end Sys2Proof.Machine
end

section
/-! PROOFS. The conditional branches of Table 12-2 (42_cond_branches.md sections 1 to 5). Each is
`branchesWhen_of_branchTest` on the row `branchTest` gives where the branch's operand is admitted. -/

namespace Sys2Proof.Machine

/-! ## Branches on one bit -/

/-- Settles O39: the rows of R132, R136, R134 and R140. -/
theorem branchesOnASetFieldBit : Obligations.BranchesOnASetFieldBit := fun _ _ _ hfield =>
  ⟨branchesWhen_of_branchTest (if_pos hfield), branchesWhen_of_branchTest (if_pos hfield),
    branchesWhen_of_branchTest (if_pos hfield), branchesWhen_of_branchTest (if_pos hfield)⟩

/-- Settles O40: the rows of R137, R139, R138 and R141. -/
theorem branchesOnAClearFieldBit : Obligations.BranchesOnAClearFieldBit := fun _ _ _ hfield =>
  ⟨branchesWhen_of_branchTest (if_pos hfield), branchesWhen_of_branchTest (if_pos hfield),
    branchesWhen_of_branchTest (if_pos hfield), branchesWhen_of_branchTest (if_pos hfield)⟩

/-- Settles O41: the row of R131. -/
theorem branchesOnASetBit : Obligations.BranchesOnASetBit := fun _ _ _ hbit =>
  branchesWhen_of_branchTest (if_pos hbit)

/-! ## `ble` and `bge` -/

section SourceLiteral

variable {s : State} {k : Nat} (t : Target) (hfield : admitsField s.params k = true)
  (hread : s.params.leGeReading = .sourceLiteral)
include hfield hread

/-- The condition of `ble` as the source describes it (R133). -/
theorem branchTest_ble_sourceLiteral :
    branchTest s (.ble k t) = some (regBit s.cr (4 * k) || regBit s.cr (4 * k + 2), t) := by
  rw [branchTest, if_pos hfield, hread]

/-- The condition of `bge` as the source describes it (R135). -/
theorem branchTest_bge_sourceLiteral :
    branchTest s (.bge k t) = some (regBit s.cr (4 * k + 1) || regBit s.cr (4 * k + 2), t) := by
  rw [branchTest, if_pos hfield, hread]

end SourceLiteral

/-- Settles O43, from the two conditions under the source's reading. -/
theorem lessOrEqualTestsTwoBits : Obligations.LessOrEqualTestsTwoBits := fun _ _ t hfield hread =>
  ⟨branchesWhen_of_branchTest (branchTest_ble_sourceLiteral t hfield hread),
    branchesWhen_of_branchTest (branchTest_bge_sourceLiteral t hfield hread)⟩

end Sys2Proof.Machine
end

section
/-! PROOFS. Register bits and the binary supplement: the decoder's answers said once, the encoder's words cut into
their fields, and the round trips (30_encoding.md section 5, 41_fpscr_to_cr.md section 3). -/

namespace Sys2Proof

open Sys2Proof.Machine

/-! ## A register's value -/

/-- The low `n` bits of a number as a sum of powers of two. -/
theorem mod_two_pow_eq_sum_testBit (m n : Nat) :
    m % 2 ^ n = ∑ i ∈ Finset.range n, (m.testBit i).toNat * 2 ^ i := by
  induction n with
  | zero => simp [Nat.mod_one]
  | succ n ih => rw [Finset.sum_range_succ, ← ih, Nat.mod_pow_succ, Nat.toNat_testBit, Nat.mul_comm (2 ^ n)]

/-- A bit by the source's number, counted from the other end. -/
theorem regBit_reflect (x : Word) {i : Nat} (h : i < 32) : regBit x (31 - i) = x.getLsbD i := by
  rw [regBit, BitVec.getMsbD_eq_getLsbD, decide_eq_true (by omega : 31 - i < 32), Bool.true_and,
    show 32 - 1 - (31 - i) = i by omega]

/-- Settles O1: the sum over the value's binary digits, read from the most significant end. -/
theorem registerValueIsSumOfNumberedBits : Obligations.RegisterValueIsSumOfNumberedBits := fun x =>
  calc x.toNat
      = x.toNat % 2 ^ 32 := (Nat.mod_eq_of_lt x.isLt).symm
    _ = ∑ i ∈ Finset.range 32, (x.toNat.testBit i).toNat * 2 ^ i := mod_two_pow_eq_sum_testBit _ _
    _ = ∑ i ∈ Finset.range 32, (regBit x (31 - i)).toNat * 2 ^ (31 - (31 - i)) :=
        Finset.sum_congr rfl fun i hi => by
          have hi : i < 32 := Finset.mem_range.mp hi
          rw [regBit_reflect x hi, BitVec.testBit_toNat, show 31 - (31 - i) = i by omega]
    _ = ∑ i ∈ Finset.range 32, (regBit x i).toNat * 2 ^ (31 - i) :=
        Finset.sum_range_reflect (fun i => (regBit x i).toNat * 2 ^ (31 - i)) 32

/-! ## Decoding what was encoded -/

/-- Settles O4, from the round trip of each constructor. -/
theorem decodeOfEncodeIsTheCanonicalInstruction : Obligations.DecodeOfEncodeIsTheCanonicalInstruction := by
  intro i
  cases i with
  | fpinstr op => exact Laws.RoundTrip.fpinstr op
  | fpinstrDot op => exact Laws.RoundTrip.fpinstrDot op
  | mtfsf fm frB rc => exact Laws.RoundTrip.mtfsf fm frB rc
  | fpscrToCr f s => exact Laws.RoundTrip.fpscrToCr f s
  | bta b a => exact Laws.RoundTrip.bta b a
  | bt b t => exact Laws.RoundTrip.bt b t
  | blt k t => exact Laws.RoundTrip.blt k t
  | ble k t => exact Laws.RoundTrip.ble k t
  | beq k t => exact Laws.RoundTrip.beq k t
  | bge k t => exact Laws.RoundTrip.bge k t
  | bgt k t => exact Laws.RoundTrip.bgt k t
  | bnl k t => exact Laws.RoundTrip.bnl k t
  | bne k t => exact Laws.RoundTrip.bne k t
  | bng k t => exact Laws.RoundTrip.bng k t
  | bun k t => exact Laws.RoundTrip.bun k t
  | bnu k t => exact Laws.RoundTrip.bnu k t

/-! ## What the decoder answers -/

/-- A one-bit field that is not 1 is 0. -/
theorem eq_zero_of_ne_one {b : BitVec 1} (h : b ≠ 1#1) : b = 0#1 := by
  revert h; revert b; decide

/-- A word of primary opcode 16 goes to the branch decoder. -/
theorem decode_of_opcode16 {w : Word} (h : insnBits w 0 5 = 16#6) : decode w = decodeBranch w := by
  rw [decode, if_pos h]

/-- The branches of the table a B-form word decodes to: `bta`, or a field branch, on BI and BD. -/
theorem decodeBranch_instr {w : Word} {i : Instr} (h : decodeBranch w = .instr i) :
    insnBits w 31 31 = 0#1 ∧
      ((insnBits w 6 9 = 0b0110#4 ∧ insnBits w 30 30 = 1#1 ∧
          i = .bta (insnBits w 11 15).toNat (absoluteTarget (insnBits w 16 29))) ∨
        ∃ ifSet : Bool, insnBits w 6 9 = (if ifSet then 0b0110#4 else 0b0010#4) ∧ insnBits w 30 30 = 0#1 ∧
          i = fieldBranch ifSet ((insnBits w 11 15).toNat % 4) ((insnBits w 11 15).toNat / 4)
            (.disp (insnBits w 16 29))) := by
  unfold decodeBranch at h
  split at h
  · cases h
  · next hlk =>
    refine ⟨eq_zero_of_ne_one hlk, ?_⟩
    split at h
    · next hbo =>
      split at h
      · next haa => cases h; exact .inl ⟨hbo, haa, rfl⟩
      · next haa => cases h; exact .inr ⟨true, hbo, eq_zero_of_ne_one haa, rfl⟩
    · split at h
      · next hbo =>
        split at h
        · cases h
        · next haa => cases h; exact .inr ⟨false, hbo, eq_zero_of_ne_one haa, rfl⟩
      · cases h

/-- The words of primary opcode 63 that are no floating-point row and decode: `mcrfs` and `mtfsf`. -/
theorem decodeFpscr_instr {w : Word} {i : Instr} (h : decodeFpscr w = .instr i) :
    (insnBits w 21 30 = 64#10 ∧ insnBits w 9 10 = 0#2 ∧ insnBits w 14 20 = 0#7 ∧ insnBits w 31 31 = 0#1 ∧
        i = .fpscrToCr (insnBits w 6 8).toNat (insnBits w 11 13).toNat) ∨
      (insnBits w 21 30 = 711#10 ∧ insnBits w 6 6 = 0#1 ∧ insnBits w 15 15 = 0#1 ∧
        i = .mtfsf (insnBits w 7 14) (insnBits w 16 20) (insnBits w 31 31 == 1#1)) := by
  simp only [decodeFpscr] at h
  split at h
  · next hxo =>
    split at h
    · next hz => cases h; exact .inl ⟨BitVec.eq_of_toNat_eq hxo, hz.1, hz.2.1, hz.2.2, rfl⟩
    · cases h
  · split at h
    · next hxo =>
      split at h
      · next hz => cases h; exact .inr ⟨BitVec.eq_of_toNat_eq hxo, hz.1, hz.2, rfl⟩
      · cases h
    · split at h <;> cases h

/-- A row without a record bit has that bit 0 in its pattern. -/
theorem fpRows_record_bit : ∀ r ∈ fpRows, r.dot = false → r.mask &&& 1#32 = 1#32 ∧ r.pattern &&& 1#32 = 0#32 := by
  decide

/-- The record bit of a word is its last bit. -/
theorem record_bit_eq_zero {w : Word} (h : w &&& 1#32 = 0#32) : insnBits w 31 31 = 0#1 := by
  have hone : ∀ b : BitVec 1, b &&& 1#1 = 0#1 → b = 0#1 := by decide
  have hbit : (w &&& 1#32).extractLsb' 0 1 = 0#1 := by rw [h]; rfl
  rw [BitVec.extractLsb'_and] at hbit
  exact hone _ hbit

/-- A word of a row without a dot form has the record bit 0. -/
theorem record_bit_of_no_dot {w : Word} {r : FpRow} (h : fpRowOf w = some r) (hdot : r.dot = false) :
    insnBits w 31 31 = 0#1 := by
  obtain ⟨hmask, hpattern⟩ := fpRows_record_bit r (fpRowOf_mem h) hdot
  apply record_bit_eq_zero
  calc w &&& 1#32 = w &&& (r.mask &&& 1#32) := by rw [hmask]
    _ = w &&& r.mask &&& 1#32 := by ac_rfl
    _ = 0#32 := by rw [fpRowOf_match h, hpattern]

/-- What a word that decodes is: a branch, a word of a floating-point row, or `mcrfs` or `mtfsf`. -/
theorem decode_instr {w : Word} {i : Instr} (h : decode w = .instr i) :
    (insnBits w 0 5 = 16#6 ∧ decodeBranch w = .instr i) ∨
      (∃ r, ∃ rc : Bool, fpRowOf w = some r ∧ (rc = true → r.dot = true) ∧ insnBits w 31 31 = BitVec.ofBool rc ∧
        i = fpForm rc ⟨r.kind, insnBits w 0 30⟩) ∨
      (insnBits w 0 5 = 63#6 ∧ decodeFpscr w = .instr i) := by
  by_cases h16 : insnBits w 0 5 = 16#6
  · exact .inl ⟨h16, decode_of_opcode16 h16 ▸ h⟩
  · cases hrow : fpRowOf w with
    | some r =>
      refine .inr (.inl ⟨r, ?_⟩)
      rw [decode_fpRow hrow] at h
      split at h
      · next hd => cases h; exact ⟨true, rfl, fun _ => hd.1, hd.2, rfl⟩
      · next hd =>
        cases h
        refine ⟨false, rfl, fun hf => (nomatch hf), ?_, rfl⟩
        cases hdot : r.dot with
        | false => exact record_bit_of_no_dot hrow hdot
        | true => exact eq_zero_of_ne_one fun h1 => hd ⟨hdot, h1⟩
    | none =>
      rw [decode, if_neg h16, hrow] at h
      split at h
      · cases ‹none = some _›
      · split at h
        · next h63 => exact .inr (.inr ⟨h63, h⟩)
        · cases h

/-! ## Encoding what was decoded -/

/-- A B-form word with the hint cleared, cut into its fields. -/
theorem and_hintMask (w : Word) :
    w &&& 0xFFDFFFFF#32 = insnBits w 0 5 ++ insnBits w 6 9 ++ 0#1 ++ insnBits w 11 15 ++ insnBits w 16 29 ++
      insnBits w 30 30 ++ insnBits w 31 31 := by
  apply BitVec.eq_of_getLsbD_eq
  intro i hi
  simp only [insnBits, BitVec.getLsbD_and, BitVec.getLsbD_append, BitVec.getLsbD_extractLsb']
  interval_cases i <;> simp +decide [BitVec.getLsbD]

/-- An `mcrfs` word cut into its fields. -/
theorem mcrfs_fields (w : Word) :
    insnBits w 0 5 ++ insnBits w 6 8 ++ insnBits w 9 10 ++ insnBits w 11 13 ++ insnBits w 14 20 ++
      insnBits w 21 30 ++ insnBits w 31 31 = w := by
  have := w.isLt
  apply BitVec.eq_of_toNat_eq
  simp only [append_toNat, insnBits_toNat]; omega

/-- An `mtfsf` word cut into its fields. -/
theorem mtfsf_fields (w : Word) :
    insnBits w 0 5 ++ insnBits w 6 6 ++ insnBits w 7 14 ++ insnBits w 15 15 ++ insnBits w 16 20 ++
      insnBits w 21 30 ++ insnBits w 31 31 = w := by
  have := w.isLt
  apply BitVec.eq_of_toNat_eq
  simp only [append_toNat, insnBits_toNat]; omega

/-- A B-form word is its encoding but for the hint. -/
theorem encodeB_fields {w : Word} {bo : BitVec 4} {aa : Bool} (h16 : insnBits w 0 5 = 16#6)
    (hbo : insnBits w 6 9 = bo) (haa : insnBits w 30 30 = BitVec.ofBool aa) (hlk : insnBits w 31 31 = 0#1) :
    encodeB bo (insnBits w 11 15).toNat (insnBits w 16 29) aa = w &&& 0xFFDFFFFF#32 := by
  rw [and_hintMask, h16, hbo, haa, hlk, encodeB, BitVec.ofNat_toNat, BitVec.setWidth_eq]

/-- The word of the field branch on bit `j` of field `k`. -/
theorem encode_fieldBranch (ifSet : Bool) {j : Nat} (k : Nat) (t : Target) (hj : j < 4) :
    encode (fieldBranch ifSet j k t) = encodeField (if ifSet then 0b0110#4 else 0b0010#4) j k t := by
  interval_cases j <;> cases ifSet <;> rfl

/-- A branch the branch decoder answers encodes to its word with the hint cleared. -/
theorem encode_of_decodeBranch {w : Word} {i : Instr} (h16 : insnBits w 0 5 = 16#6)
    (h : decodeBranch w = .instr i) : encode i = some (w &&& 0xFFDFFFFF#32) := by
  have hbi : (insnBits w 11 15).toNat < 32 := (insnBits w 11 15).isLt
  obtain ⟨hlk, ⟨hbo, haa, rfl⟩ | ⟨ifSet, hbo, haa, rfl⟩⟩ := decodeBranch_instr h
  · simp only [encode, extract_absoluteTarget, hbi, and_self, if_true]
    rw [encodeB_fields (aa := true) h16 hbo haa hlk]
  · rw [encode_fieldBranch _ _ _ (Nat.mod_lt _ (by decide)), encodeField, if_pos (by omega), Nat.div_add_mod,
      encodeB_fields (aa := false) h16 hbo haa hlk]

/-- `mcrfs` and `mtfsf` encode to their words. -/
theorem encode_of_decodeFpscr {w : Word} {i : Instr} (h63 : insnBits w 0 5 = 63#6)
    (h : decodeFpscr w = .instr i) : encode i = some w := by
  rcases decodeFpscr_instr h with ⟨hxo, h9, h14, h31, rfl⟩ | ⟨hxo, h6, h15, rfl⟩
  · have hf : (insnBits w 6 8).toNat < 8 := (insnBits w 6 8).isLt
    have hs : (insnBits w 11 13).toNat < 8 := (insnBits w 11 13).isLt
    conv_rhs => rw [← mcrfs_fields w, h63, h9, h14, hxo, h31]
    simp only [encode, hf, hs, and_self, if_true, BitVec.ofNat_toNat, BitVec.setWidth_eq]
  · have hrc : ∀ b : BitVec 1, BitVec.ofBool (b == 1#1) = b := by decide
    conv_rhs => rw [← mtfsf_fields w, h63, h6, h15, hxo]
    rw [encode, hrc]

/-- A floating-point word of a row encodes to itself. -/
theorem encodeFp_of_row {w : Word} {r : FpRow} {rc : Bool} (hrow : fpRowOf w = some r)
    (hdot : rc = true → r.dot = true) (hrc : insnBits w 31 31 = BitVec.ofBool rc) :
    encodeFp ⟨r.kind, insnBits w 0 30⟩ rc = some w := by
  have hw : (insnBits w 0 30 ++ BitVec.ofBool rc : Word) = w := by rw [← hrc, insnBits_append_record]
  simp only [encodeFp, hw, hrow, true_and]
  exact if_pos hdot

theorem encode_fpForm (rc : Bool) (op : FpOp) : encode (fpForm rc op) = encodeFp op rc := by cases rc <;> rfl

/-- Settles O5, for each kind of word that decodes. -/
theorem encodeOfDecodeRestoresTheWord : Obligations.EncodeOfDecodeRestoresTheWord := by
  intro w i h
  rcases decode_instr h with ⟨h16, hb⟩ | ⟨r, rc, hrow, hdot, hrc, rfl⟩ | ⟨h63, hf⟩
  · rw [if_pos h16, encode_of_decodeBranch h16 hb]
  · rw [if_neg (opcode_of_fpRow hrow), encode_fpForm, encodeFp_of_row hrow hdot hrc]
  · rw [if_neg (by rw [h63]; decide), encode_of_decodeFpscr h63 hf]

/-! ## Every admitted operand -/

theorem encodeField_disp (bo : BitVec 4) (j : Nat) {k : Nat} (bd : BitVec 14) (hk : k < 8) :
    (encodeField bo j k (.disp bd)).isSome = true := by
  rw [encodeField, if_pos hk]; rfl

/-- Changing the record bit of a word of a row that has one leaves it in the row. -/
theorem fpRows_dot_mask : ∀ r ∈ fpRows, r.dot = true → r.mask = r.mask &&& 0xFFFFFFFE#32 := by decide

/-- Two words with the same first 31 bits agree on every mask without the record bit. -/
theorem and_eq_of_code {w v mask : Word} (hmask : mask = mask &&& 0xFFFFFFFE#32)
    (h : insnBits w 0 30 = insnBits v 0 30) : w &&& mask = v &&& mask := by
  have hcode : w &&& 0xFFFFFFFE#32 = v &&& 0xFFFFFFFE#32 := by
    have hcut : ∀ x : Word, x &&& 0xFFFFFFFE#32 = insnBits x 0 30 ++ 0#1 := by
      intro x
      apply BitVec.eq_of_getLsbD_eq
      intro i hi
      simp only [insnBits, BitVec.getLsbD_and, BitVec.getLsbD_append, BitVec.getLsbD_extractLsb']
      interval_cases i <;> simp +decide [BitVec.getLsbD]
    rw [hcut, hcut, h]
  calc w &&& mask = w &&& 0xFFFFFFFE#32 &&& mask := by rw [hmask]; ac_rfl
    _ = v &&& 0xFFFFFFFE#32 &&& mask := by rw [hcode]
    _ = v &&& mask := by rw [hmask]; ac_rfl

/-- A word of a row with a record bit is of the row with that bit either way. -/
theorem fpRowOf_either_record {w : Word} {r : FpRow} (hrow : fpRowOf w = some r) (hdot : r.dot = true) (rc : Bool) :
    fpRowOf (insnBits w 0 30 ++ BitVec.ofBool rc) = some r := by
  have hmem := fpRowOf_mem hrow
  refine fpRowOf_of_match hmem ?_
  rw [and_eq_of_code (fpRows_dot_mask r hmem hdot) (insnBits_code _ _), fpRowOf_match hrow]

/-- The two forms of a word of a row: with a record bit, either one is of the row. -/
theorem encodeFp_isSome {w : Word} {r : FpRow} (hrow : fpRowOf w = some r) {rc : Bool}
    (hdot : rc = true → r.dot = true) : (encodeFp ⟨r.kind, insnBits w 0 30⟩ rc).isSome = true := by
  cases hd : r.dot with
  | true =>
    have hword := encodeFp_of_row (fpRowOf_either_record hrow hd rc) hdot (insnBits_record _ _)
    rw [insnBits_code] at hword
    rw [hword]; rfl
  | false =>
    have hrc : rc = false := by cases rc with
      | false => rfl
      | true => rw [hdot rfl] at hd; cases hd
    rw [encodeFp_of_row hrow hdot (by rw [hrc]; exact record_bit_of_no_dot hrow hd)]; rfl

/-- Settles O6, from what each encoder admits. -/
theorem everyAdmittedOperandHasAWord : Obligations.EveryAdmittedOperandHasAWord := by
  refine ⟨fun k hk bd => ?fields, fun b hb bd => ?bits, fun f hf s hs => ?store, fun fm frB rc => rfl,
    fun w r hrow => ?fp⟩
  case fields =>
    have hfield : ∀ bo j, (encodeField bo j k (.disp bd)).isSome = true := fun bo j => encodeField_disp bo j bd hk
    exact ⟨hfield _ _, hfield _ _, hfield _ _, hfield _ _, hfield _ _, hfield _ _, hfield _ _, hfield _ _,
      hfield _ _, hfield _ _⟩
  case bits => simp [encode, hb, extract_absoluteTarget]
  case store => simp [encode, hf, hs]
  case fp =>
    exact ⟨encodeFp_isSome hrow fun h => (nomatch h), fun hdot => encodeFp_isSome hrow fun _ => hdot⟩

/-! ## The hint -/

/-- A field that does not hold instruction bit 10 is read alike with the bit flipped. -/
theorem insnBits_flipHint (w : Word) {i j : Nat}
    (h : (0x00200000#32).extractLsb' (31 - j) (j - i + 1) = 0#(j - i + 1)) :
    insnBits (w ^^^ 0x00200000#32) i j = insnBits w i j := by
  rw [insnBits, BitVec.extractLsb'_xor, h, BitVec.xor_zero, insnBits]

/-- Settles O7: no field the branch decoder reads holds bit 10. -/
theorem hintBitDoesNotChangeTheInstruction : Obligations.HintBitDoesNotChangeTheInstruction := by
  intro w h16
  have h16' : insnBits (w ^^^ 0x00200000#32) 0 5 = 16#6 := by rw [insnBits_flipHint w (by decide), h16]
  rw [decode_of_opcode16 h16, decode_of_opcode16 h16']
  simp only [decodeBranch, insnBits_flipHint w (i := 31) (j := 31) (by decide),
    insnBits_flipHint w (i := 30) (j := 30) (by decide), insnBits_flipHint w (i := 6) (j := 9) (by decide),
    insnBits_flipHint w (i := 11) (j := 15) (by decide), insnBits_flipHint w (i := 16) (j := 29) (by decide)]

/-! ## Operand ranges and rejected branches -/

/-- The target of an absolute branch is a multiple of 4. -/
theorem absoluteTarget_aligned (bd : BitVec 14) : (absoluteTarget bd).toNat % 4 = 0 := by
  have hlow : (absoluteTarget bd).extractLsb' 0 2 = 0#2 := by
    apply BitVec.eq_of_getLsbD_eq
    intro i hi
    simp only [absoluteTarget, BitVec.getLsbD_extractLsb', BitVec.getLsbD_signExtend, BitVec.getLsbD_append]
    interval_cases i <;> simp
  simpa using congrArg BitVec.toNat hlow

/-- A field branch is well formed when its field and target are. -/
theorem fieldBranch_wellFormed (ifSet : Bool) (j : Nat) {k : Nat} (bd : BitVec 14) (hk : k < 8) :
    (fieldBranch ifSet j k (.disp bd)).wellFormed = true := by
  unfold fieldBranch
  split <;> simp [Instr.wellFormed, Target.wellFormed, hk]

/-- Settles O9, for each kind of word that decodes. -/
theorem decodedOperandsAreInRange : Obligations.DecodedOperandsAreInRange := by
  intro w i h
  rcases decode_instr h with ⟨-, hb⟩ | ⟨r, rc, -, -, -, rfl⟩ | ⟨-, hf⟩
  · have hbi : (insnBits w 11 15).toNat < 32 := (insnBits w 11 15).isLt
    obtain ⟨-, ⟨-, -, rfl⟩ | ⟨ifSet, -, -, rfl⟩⟩ := decodeBranch_instr hb
    · left; simp [Instr.wellFormed, Target.wellFormed, hbi, absoluteTarget_aligned]
    · exact .inl (fieldBranch_wellFormed _ _ _ (by omega))
  · left; cases rc <;> rfl
  · rcases decodeFpscr_instr hf with ⟨-, -, -, -, rfl⟩ | ⟨-, -, -, rfl⟩
    · have hdst : (insnBits w 6 8).toNat < 8 := (insnBits w 6 8).isLt
      have hsrc : (insnBits w 11 13).toNat < 8 := (insnBits w 11 13).isLt
      by_cases hrange : 2 ≤ (insnBits w 6 8).toNat ∧ (insnBits w 6 8).toNat ≤ 4
      · left; simp only [Instr.wellFormed, decide_eq_true_eq]; exact ⟨hrange.1, hrange.2, hsrc⟩
      · exact .inr ⟨_, _, rfl, hdst, hsrc, by omega⟩
    · exact .inl rfl

/-- Settles O8, the three ways out of the branch decoder. -/
theorem branchFormsOutsideTheTableAreRejected : Obligations.BranchFormsOutsideTheTableAreRejected := by
  intro w h16 h
  rw [decode_of_opcode16 h16]
  rcases h with hlk | ⟨hbo, haa⟩ | ⟨hset, hclear⟩
  · simp [decodeBranch, hlk]
  · simp [decodeBranch, hbo, haa]
  · simp [decodeBranch, hset, hclear]

/-- Settles O3: thirteen words, each decoded by evaluation. -/
theorem decodesTheWordsOfTheSpec : Obligations.DecodesTheWordsOfTheSpec := by
  unfold Obligations.DecodesTheWordsOfTheSpec
  decide

end Sys2Proof
end

section
/-! PROOFS. Floating-point instructions: what Record leaves in the FPSCR, bit by bit, and what is kept
(40_fp_instructions.md sections 0.1, 2 and 6). -/

namespace Sys2Proof.Machine

/-! ## What both forms leave -/

/-- The FPSCR either form leaves is Record of the numerics function's answer, and the parameters stand. -/
theorem stateLeft_fpForm_fpscr (dot : Bool) (op : FpOp) (s : State) :
    ∃ t, stateLeft (exec (fpForm dot op) s) = some t ∧
      t.fpscr = record s.params (Config.freeBit0 s.fpSeq) s.fpscr (fpOut op s) ∧ t.params = s.params := by
  obtain ⟨t, hleft, hrec⟩ := stateLeft_fpForm dot op s
  exact ⟨t, hleft, by simpa using congrArg State.fpscr hrec, by simpa using congrArg State.params hrec⟩

/-! ## Events -/

/-- The events of an instruction are implemented exceptions. -/
theorem implemented_of_mem_fpOut {op : FpOp} {s : State} {e : Exc} (h : e ∈ (fpOut op s).ev) :
    implemented s.params e = true :=
  mem_excs.mp (conformOut_ev_subset _ _ _ _ _ e h)

/-- A class exempt from the signaling-NaN exception has no such event. -/
theorem vxsnan_not_mem_fpOut {op : FpOp} (s : State) (h : exemptFromSnan op.kind = true) :
    .vxsnan ∉ (fpOut op s).ev := by
  intro hmem
  obtain ⟨hnot, -⟩ := (vxsnan_mem_conformOut _ _ _ _ _).mp hmem
  rw [h] at hnot; cases hnot

/-- Settles O23: bits 21 and 22 are those of the two exceptions that may not be implemented. -/
theorem onlyImplementedExceptionsOccur : Obligations.OnlyImplementedExceptionsOccur := by
  intro op s e hmem
  have himpl := implemented_of_mem_fpOut hmem
  refine ⟨by have := statusBit_range e; omega, fun hno => ?_⟩
  cases e with
  | vxsoft => rw [implemented, hno] at himpl; cases himpl
  | vxsqrt => rw [implemented, hno] at himpl; cases himpl
  | _ => decide

/-- Settles O16: a status bit after Record, where the events are implemented. -/
theorem statusBitsAreSetAndSticky : Obligations.StatusBitsAreSetAndSticky := by
  refine ⟨fun dot op s => ?set, fun dot op s t hexempt hleft => ?exempt⟩
  case set =>
    obtain ⟨t, hleft, hfpscr, -⟩ := stateLeft_fpForm_fpscr dot op s
    refine ⟨t, hleft, fun e => ?_⟩
    rw [hfpscr, regBit_record_status]
    cases hmem : (fpOut op s).ev.contains e with
    | false => rw [Bool.and_false]
    | true => rw [implemented_of_mem_fpOut (List.contains_iff_mem.mp hmem), Bool.and_true]
  case exempt =>
    obtain ⟨t', hleft', hfpscr, -⟩ := stateLeft_fpForm_fpscr dot op s
    cases hleft.symm.trans hleft'
    have hno : (fpOut op s).ev.contains .vxsnan = false := by
      simpa using vxsnan_not_mem_fpOut s hexempt
    rw [hfpscr]
    exact (regBit_record_status _ _ _ _ .vxsnan).trans (by rw [hno, Bool.or_false]; rfl)

/-! ## The summaries -/

/-- The invalid summary by the source's bit numbers (R104). -/
theorem invalidSummary_iff (p : Params) (f : Word) : invalidSummary p f = true ↔
    (∃ i ∈ [7, 8, 9, 10, 11, 12, 23], regBit f i = true) ∨
      p.hasVxsoftVxsqrt = true ∧ (regBit f 21 = true ∨ regBit f 22 = true) := by
  cases hp : p.hasVxsoftVxsqrt <;>
    simp [invalidSummary, invalidCauses, excs, allExc, implemented, isInvalid, hp, statusBit]
  case true => tauto

/-- The enable summary under the source's reading (R106). -/
theorem enableSummary_sourceLiteral_iff {p : Params} (f : Word) (h : p.fexReading = .sourceLiteral) :
    enableSummary p f = true ↔ ∃ i, 24 ≤ i ∧ i ≤ 28 ∧ regBit f i = true := by
  simp only [enableSummary, h, List.any_eq_true]
  constructor
  · rintro ⟨i, hi, hbit⟩
    simp only [List.mem_cons, List.not_mem_nil, or_false] at hi
    exact ⟨i, by omega, by omega, hbit⟩
  · rintro ⟨i, h24, h28, hbit⟩
    refine ⟨i, ?_, hbit⟩
    interval_cases i <;> decide

/-- The enable summary under the other reading: an enabled exception is recorded (R106). -/
theorem enableSummary_occurred_iff {p : Params} (f : Word) (h : p.fexReading = .enabledExceptionOccurred) :
    enableSummary p f = true ↔
      ∃ e, implemented p e = true ∧ regBit f (statusBit e) = true ∧ regBit f (enableBit e) = true := by
  simp only [enableSummary, h, List.any_eq_true, mem_excs, Bool.and_eq_true]

/-- Settles O17: Record recomputes bit 2. -/
theorem invalidSummaryIsRecomputed : Obligations.InvalidSummaryIsRecomputed := by
  intro dot op s
  obtain ⟨t, hleft, hfpscr, -⟩ := stateLeft_fpForm_fpscr dot op s
  refine ⟨t, hleft, ?_⟩
  rw [hfpscr, (record_consistent _ _ _ _).2, invalidSummary_iff]

/-- Settles O19: Record recomputes bit 1. -/
theorem enableSummaryIsRecomputed : Obligations.EnableSummaryIsRecomputed := by
  intro dot op s
  obtain ⟨t, hleft, hfpscr, -⟩ := stateLeft_fpForm_fpscr dot op s
  refine ⟨t, hleft, ?_⟩
  rw [hfpscr, (record_consistent _ _ _ _).1]
  exact ⟨enableSummary_sourceLiteral_iff _, enableSummary_occurred_iff _⟩

/-! ## Bit 0 and the result bits -/

/-- Bit 0 after Record (R105, 93 U7). -/
theorem anyExceptionBit_eq (free : Bool) (f : Word) (ev : List Exc) :
    anyExceptionBit free f ev =
      if ev = [] then regBit f 0
      else if regBit f 0 = false ∧ ∀ e ∈ ev, regBit f (statusBit e) = true then free else true := by
  simp only [anyExceptionBit, recursUnsummarised, List.isEmpty_iff]
  split
  · rfl
  · next hne => simp [hne]

/-- Settles O18: bit 0 is none of the summaries recomputed. -/
theorem anyExceptionBitIsSetOrKept : Obligations.AnyExceptionBitIsSetOrKept := by
  intro dot op s
  obtain ⟨t, hleft, hfpscr, -⟩ := stateLeft_fpForm_fpscr dot op s
  refine ⟨t, hleft, ?_⟩
  rw [hfpscr, regBit_record _ _ _ _ (by decide) (by decide) (by decide), eventBit, if_pos rfl, anyExceptionBit_eq]

/-- Bits 15 to 19 after Record: the class, where the answer has one (R109). -/
theorem regBit_record_class (p : Params) (free : Bool) (f : Word) (out : FpOut) {j : Nat} (hj : j < 5) :
    regBit (record p free f out) (15 + j) = (out.cls.map fun c => c.getMsbD j).getD (regBit f (15 + j)) := by
  rw [regBit_record _ _ _ _ (by omega) (by omega) (by omega), eventBit, if_neg (by omega), if_neg (by omega),
    if_neg (by omega), if_pos (by omega), Nat.add_sub_cancel_left]
  cases out.cls <;> rfl

/-- Settles O20: nor are bits 13 to 19. -/
theorem resultBitsAreOverwritten : Obligations.ResultBitsAreOverwritten := by
  intro dot op s
  obtain ⟨t, hleft, hfpscr, -⟩ := stateLeft_fpForm_fpscr dot op s
  refine ⟨t, hleft, ?_⟩
  rw [hfpscr]
  refine ⟨regBit_record _ _ _ _ (by decide) (by decide) (by decide),
    regBit_record _ _ _ _ (by decide) (by decide) (by decide), fun j hj => ?_⟩
  rw [regBit_record_class _ _ _ _ hj]
  cases (fpOut op s).cls <;> rfl

/-! ## What the numerics function reads -/

/-- A field of a register is determined by its bits. -/
theorem extractLsb'_congr {f g : Word} {start len : Nat} (hlen : start + len ≤ 32)
    (h : ∀ i, 32 - (start + len) ≤ i → i ≤ 31 - start → regBit f i = regBit g i) :
    f.extractLsb' start len = g.extractLsb' start len := by
  apply BitVec.eq_of_getLsbD_eq
  intro i hi
  rw [BitVec.getLsbD_extractLsb', BitVec.getLsbD_extractLsb', ← regBit_reflect f (by omega : start + i < 32),
    ← regBit_reflect g (by omega : start + i < 32), h _ (by omega) (by omega)]

/-- Settles O24: the rounding direction and the enables are fields of the bits given. -/
theorem numericsReadOnlyRoundingAndEnables : Obligations.NumericsReadOnlyRoundingAndEnables := by
  intro op s f h cr pc
  have hround : roundingDirection f = roundingDirection s.fpscr :=
    extractLsb'_congr (by decide) fun i h30 h31 => h i (by omega)
  have henable : enableBits f = enableBits s.fpscr :=
    extractLsb'_congr (by decide) fun i h24 h28 => h i (by omega)
  simp [fpOut, hround, henable]

/-! ## Comparisons -/

/-- An ordered comparison with a NaN operand has the invalid comparison among its events (R124). -/
theorem vxvc_mem_conformOut (p : Params) (snan : Bool) (raw : FpRaw) :
    .vxvc ∈ (conformOut p .compareOrdered snan true raw).ev := by
  have himpl : .vxvc ∈ excs p := mem_excs.mpr rfl
  simp [conformOut, List.mem_filter, himpl]

/-- The class a comparison reports: bit 15 free, then the outcome. -/
theorem conformOut_cls_compare (p : Params) {kind : FpKind} (snan nan : Bool) (raw : FpRaw)
    (h : kind = .compare ∨ kind = .compareOrdered) :
    (conformOut p kind snan nan raw).cls = some (BitVec.ofBool raw.cmpClass ++ cmpBits raw.cmp) := by
  rcases h with rfl | rfl <;> rfl

/-- The outcome of a comparison is one of four bits. -/
theorem cmpBits_oneHot (r : CmpResult) : ∃ j < 4, ∀ i < 4, (cmpBits r).getMsbD i = decide (i = j) := by
  cases r with
  | less => exact ⟨0, by decide, by decide⟩
  | greater => exact ⟨1, by decide, by decide⟩
  | equal => exact ⟨2, by decide, by decide⟩
  | unordered => exact ⟨3, by decide, by decide⟩

/-- Bits 16 to 19 after a comparison are its outcome. -/
theorem stateLeft_compare (dot : Bool) {op : FpOp} (s : State) (h : op.kind = .compare ∨ op.kind = .compareOrdered) :
    ∃ t, stateLeft (exec (fpForm dot op) s) = some t ∧
      ∃ j < 4, ∀ i < 4, regBit t.fpscr (16 + i) = decide (i = j) := by
  obtain ⟨t, hleft, hfpscr, -⟩ := stateLeft_fpForm_fpscr dot op s
  obtain ⟨raw, hcls⟩ : ∃ raw : FpRaw, (fpOut op s).cls = some (BitVec.ofBool raw.cmpClass ++ cmpBits raw.cmp) :=
    ⟨_, conformOut_cls_compare _ _ _ _ h⟩
  obtain ⟨j, hj, hbits⟩ := cmpBits_oneHot raw.cmp
  refine ⟨t, hleft, j, hj, fun i hi => ?_⟩
  rw [hfpscr, show 16 + i = 15 + (1 + i) by omega, regBit_record_class _ _ _ _ (by omega), hcls, Option.map_some,
    Option.getD_some, BitVec.getMsbD_append, if_pos (by omega), Nat.add_sub_cancel_left, hbits i hi]

/-- A word of a row without a record bit decodes to the plain form. -/
theorem decode_of_row_no_dot {w : Word} {r : FpRow} (hmem : r ∈ fpRows) (hdot : r.dot = false)
    (h : w &&& r.mask = r.pattern) : decode w = .instr (.fpinstr ⟨r.kind, insnBits w 0 30⟩) := by
  rw [decode_fpRow (fpRowOf_of_match hmem h), if_neg (by simp [hdot])]

/-- A comparison's word leaves what its `<fpinstr>` leaves with bits 16 to 19 in the field it names. -/
theorem stateLeft_execWord_compare {i : Instr} {f : Nat} (s : State) (h : compareField i = some f) (h2 : 2 ≤ f)
    (h4 : f ≤ 4) : ∃ u, stateLeft (exec i s) = some u ∧ stateLeft (execWord i s) = some (storeCompare f u) := by
  obtain ⟨-, op, rfl⟩ := compareField_lt h
  obtain ⟨u, hleft, -⟩ := stateLeft_fpForm false op s
  have hleft : stateLeft (exec (.fpinstr op) s) = some u := hleft
  exact ⟨u, hleft, by rw [execWord_of_compare s h h2 h4, stateLeft_alsoStoreCompare, hleft, Option.map_some]⟩

/-- A comparison's word that names another field is refused (R122). -/
theorem execWord_compare_refused {i : Instr} {f : Nat} (s : State) (h : compareField i = some f)
    (hf : f < 2 ∨ 4 < f) : execWord i s = .refused .fieldOutsideSource := by
  simp only [execWord, h]
  exact if_neg (by omega)

/-- Settles O21: what both forms record, what the two words decode to, and what they store. -/
theorem comparisonLeavesOneOfFourBits : Obligations.ComparisonLeavesOneOfFourBits := by
  refine ⟨fun dot op s => stateLeft_compare dot s, vxvc_mem_conformOut, fun w h => ?fcmpu, fun w h => ?fcmpo,
    fun w kind => compareField_word w, fun i s f hfield => ⟨fun h2 h4 => ?stored, execWord_compare_refused s hfield⟩⟩
  case fcmpu => exact decode_of_row_no_dot (r := ⟨0xFC6007FF#32, 0xFC000000#32, .compare, false⟩) (by decide) rfl h
  case fcmpo =>
    exact decode_of_row_no_dot (r := ⟨0xFC6007FF#32, 0xFC000040#32, .compareOrdered, false⟩) (by decide) rfl h
  case stored =>
    obtain ⟨u, hleft, hword⟩ := stateLeft_execWord_compare s hfield h2 h4
    refine ⟨storeCompare f u, u, hleft, hword, rfl, fun j hj => ?_, fun j hj => ?_⟩
    · rw [storeCompare_cr, regBit_copyField_inside _ _ _ (by omega) hj]
    · rw [storeCompare_cr, regBit_copyField_outside _ _ _ hj]

/-! ## What is kept -/

/-- What `completeFp` leaves: the recorded status, and the pc moved on where it does not trap. -/
theorem stateLeft_completeFp (dot : Bool) (out : FpOut) (s : State) :
    stateLeft (completeFp dot out s) =
      some (if trap s out then recordStatus dot out s else advance (recordStatus dot out s)) := by
  cases h : trap s out
  · rw [completeFp_of_not_trap h]; rfl
  · rw [completeFp_of_trap h]; rfl

/-- Settles O25: both forms record alike, and trap alike from the old enables. -/
theorem dotChangesNothingInTheFpscr : Obligations.DotChangesNothingInTheFpscr := by
  intro op s t u ht hu
  cases (stateLeft_completeFp false (fpOut op s) s).symm.trans ht
  cases (stateLeft_completeFp true (fpOut op s) s).symm.trans hu
  split <;> simp

theorem sameProgram_recordStatus (dot : Bool) (out : FpOut) (s : State) : SameProgram s (recordStatus dot out s) :=
  ⟨rfl, rfl, rfl, rfl, rfl, fun _ => rfl⟩

/-- Moving the pc leaves the program alone. -/
theorem SameProgram.withPc {s t : State} (h : SameProgram s t) (a : Word) : SameProgram s (t.withPc a) := h

/-- Settles O28: Record keeps the control bits, and `recordStatus` writes nothing of the program. -/
theorem floatingPointKeepsControlAndProgram : Obligations.FloatingPointKeepsControlAndProgram := by
  intro dot op s
  have hsame := sameProgram_recordStatus dot (fpOut op s) s
  refine ⟨_, by rw [exec_fpForm, stateLeft_completeFp], ?_, fun i hi => ?_⟩
  · split
    · exact hsame
    · exact hsame.withPc _
  · split
    · exact regBit_record_control _ _ _ _ hi
    · exact regBit_record_control _ _ _ _ hi

/-! ## Going on and trapping -/

/-- The trap condition (R111). -/
theorem trap_iff {s : State} {out : FpOut} : trap s out = true ↔
    (s.msr20 = true ∨ s.msr23 = true) ∧ ∃ e ∈ out.ev, regBit s.fpscr (enableBit e) = true := by
  simp [trap, enablesValid]

/-- Settles O29: nothing traps, and the effect is that of `recordStatus`. -/
theorem plainFormCompletes : Obligations.PlainFormCompletes := fun op s h =>
  ⟨_, completeFp_of_not_trap (trap_eq_false (fpOut op s) h), rfl, rfl, rfl, rfl,
    (sameProgram_recordStatus false _ s).withPc _⟩

/-- Settles O30: the same, with the copy into CR1. -/
theorem dotFormCompletes : Obligations.DotFormCompletes := by
  intro op s h
  refine ⟨_, completeFp_of_not_trap (trap_eq_false (fpOut op s) h), rfl, fun j hj => ?_, fun i hi => ?_, rfl, rfl,
    (sameProgram_recordStatus true _ s).withPc _⟩
  · exact regBit_copyField_cr1 _ _ hj
  · exact regBit_copyField_outside _ _ _ hi

/-- Settles O31, from the trap condition. -/
theorem enabledExceptionFaultsAfterRecording : Obligations.EnabledExceptionFaultsAfterRecording := by
  refine ⟨fun _ _ => rfl, fun _ _ => rfl, rfl, fun dot out s => ⟨fun hmsr hev => ?_, fun hnone => ?_⟩⟩
  · exact completeFp_of_trap (trap_iff.mpr ⟨hmsr, hev⟩)
  · refine completeFp_of_not_trap (Bool.eq_false_iff.mpr fun htrap => ?_)
    obtain ⟨hmsr, e, hmem, hbit⟩ := trap_iff.mp htrap
    rcases hnone with ⟨h20, h23⟩ | hnone
    · simp [h20, h23] at hmsr
    · rw [hnone e hmem] at hbit; cases hbit

theorem branchIf_ne_fault (c : Bool) (g : Target) (s : State) (r : Fault) : branchIf c g s ≠ .fault r := by
  unfold branchIf branchTo
  repeat' split
  all_goals simp

theorem exec_branch_ne_fault {i : Instr} (h : isBranch i = true) (s : State) (r : Fault) : exec i s ≠ .fault r := by
  rw [exec_branch h]
  split
  · exact branchIf_ne_fault _ _ _ _
  · simp

theorem execFpscrToCr_ne_fault (f src : Nat) (s : State) (r : Fault) : execFpscrToCr f src s ≠ .fault r := by
  unfold execFpscrToCr
  repeat' split
  all_goals simp

theorem trap_of_completeFp_fault {dot : Bool} {out : FpOut} {s : State} {r : Fault}
    (h : completeFp dot out s = .fault r) : trap s out = true := by
  by_contra hno
  rw [completeFp_of_not_trap (by simpa using hno)] at h
  cases h

/-- An instruction that faults is a floating-point one that traps. -/
theorem exec_fault {i : Instr} {s : State} {r : Fault} (h : exec i s = .fault r) :
    ∃ dot op, i = fpForm dot op ∧ trap s (fpOut op s) = true := by
  cases i with
  | fpinstr op => exact ⟨false, op, rfl, trap_of_completeFp_fault (dot := false) h⟩
  | fpinstrDot op => exact ⟨true, op, rfl, trap_of_completeFp_fault (dot := true) h⟩
  | mtfsf => cases h
  | fpscrToCr f src => exact absurd h (execFpscrToCr_ne_fault f src s r)
  | _ => exact absurd h (exec_branch_ne_fault rfl s r)

/-- Settles O32: only a trap faults, and none is taken with the MSR bits clear. -/
theorem nothingElseFaults : Obligations.NothingElseFaults := by
  intro i s r h hfault
  obtain ⟨dot, op, rfl, htrap⟩ := exec_fault hfault
  rcases h with hmsr | hother
  · rw [trap_eq_false _ (.inl hmsr)] at htrap; cases htrap
  · exact hother dot op rfl

end Sys2Proof.Machine
end

section
/-! PROOFS. `<fpscr-to-cr>` (41_fpscr_to_cr.md), and the branches that follow from `branchTest`
(42_cond_branches.md sections 0 to 6). -/

namespace Sys2Proof.Machine

/-! ## `<fpscr-to-cr>` -/

/-- The copy and the effect on the FPSCR, where both fields are operands (R121). -/
theorem exec_fpscrToCr {f src : Nat} (s : State) (h2 : 2 ≤ f) (h4 : f ≤ 4) (hsrc : src < 8) :
    exec (.fpscrToCr f src) s = .next (advance
      ((s.withCr (copyField s.cr f s.fpscr src)).withFpscr (xferFpscr s.params s.fpscr src))) := by
  rw [exec, execFpscrToCr, if_pos ⟨h2, h4⟩, if_pos hsrc]

/-- Settles O34: the field copy, inside and outside the field. -/
theorem fpscrToCrCopiesOneField : Obligations.FpscrToCrCopiesOneField := by
  intro f src s h2 h4 hsrc
  refine ⟨_, exec_fpscrToCr s h2 h4 hsrc, fun j hj => ?_, fun i hi => ?_, rfl, rfl,
    rfl, rfl, rfl, rfl, rfl, fun _ => rfl⟩
  · exact regBit_copyField_inside _ _ _ (by omega) hj
  · exact regBit_copyField_outside _ _ _ hi

/-- The bits the clearing effect clears: bit 0 and the implemented status bits of the field (R121). -/
theorem clearedByXfer_eq (p : Params) (src i : Nat) : clearedByXfer p src i =
    decide (4 * src ≤ i ∧ i < 4 * src + 4 ∧ (i = 0 ∨ ∃ e ∈ excs p, statusBit e = i)) := by
  have hfield : i / 4 = src ↔ 4 * src ≤ i ∧ i < 4 * src + 4 := by omega
  rw [Bool.eq_iff_iff]
  simp [clearedByXfer, hfield, and_assoc]

/-- Under the clearing effect the summaries are recomputed (R121). -/
theorem xferFpscr_consistent {p : Params} (f : Word) (src : Nat) (h : p.xferEffect = .clearCopiedStatus) :
    regBit (xferFpscr p f src) 1 = enableSummary p (xferFpscr p f src) ∧
      regBit (xferFpscr p f src) 2 = invalidSummary p (xferFpscr p f src) := by
  simp only [xferFpscr, h]
  exact recompute_consistent p _

/-- Settles O35: the two values of XferEffect. -/
theorem fpscrAfterFpscrToCr : Obligations.FpscrAfterFpscrToCr := by
  intro f src s t h
  obtain ⟨-, -, -, rfl⟩ := execFpscrToCr_next (show execFpscrToCr f src s = _ from h)
  simp only [advance_fpscr, State.withFpscr_fpscr]
  refine ⟨fun hkeep => by rw [xferFpscr, hkeep], fun hclear => ⟨fun i h1 h2 => ?_, xferFpscr_consistent _ _ hclear⟩⟩
  by_cases hi : i < 32
  · rw [regBit_xferFpscr _ _ _ hi h1 h2, clearedByXfer_eq, hclear, decide_eq_true rfl, Bool.true_and]
  · rw [regBit_of_ge _ (by omega), regBit_of_ge _ (by omega), Bool.false_and]

/-- Settles O36: the two range checks. -/
theorem fpscrToCrRefusesOtherFields : Obligations.FpscrToCrRefusesOtherFields := by
  refine ⟨fun f src s hf => ?_, fun f src s h2 h4 hsrc => ?_⟩
  · rw [exec, execFpscrToCr, if_neg (by omega)]
  · rw [exec, execFpscrToCr, if_pos ⟨h2, h4⟩, if_neg (by omega)]

/-! ## A branch that goes on -/

/-- Where a branch that goes on went. -/
theorem branchIf_next_eq {c : Bool} {g : Target} {s t : State} (h : branchIf c g s = .next t) :
    t = s.withPc (if c then branchTarget s.pc g else nextPc s.pc) := by
  cases c with
  | true => exact (branchTo_next h).2.2
  | false => cases h; rfl

/-- A branch that goes on has a condition and a target. -/
theorem exec_branch_next {i : Instr} {s u : State} (h : isBranch i = true) (hu : exec i s = .next u) :
    ∃ c t, branchTest s i = some (c, t) ∧ branchIf c t s = .next u := by
  rw [exec_branch h] at hu
  split at hu
  · next c t htest => exact ⟨c, t, htest, hu⟩
  · cases hu

/-! ## Refusals, frame and noninterference -/

/-- Settles O47: the two checks of a taken branch, and that an untaken one makes none. -/
theorem badTargetsAreRefusedWhenTaken : Obligations.BadTargetsAreRefusedWhenTaken := by
  refine fun i s t => ⟨fun htest halign => ?misaligned, fun htest halign hheld hend => ?outside, fun htest => ?untaken⟩
  case misaligned => rw [exec_of_branchTest htest, branchIf, if_pos rfl, branchTo, if_neg (by simp [halign])]
  case outside =>
    rw [exec_of_branchTest htest, branchIf, if_pos rfl, branchTo, if_pos halign, if_neg (by simp [hheld, hend])]
  case untaken => exact (branchesWhen_of_branchTest htest).2 rfl

/-- The fields BRANCH_FIELDS admits (R83). -/
theorem admitsField_iff (p : Params) (k : Nat) : admitsField p k = true ↔
    (p.branchFields = .zeroToSeven ∧ k < 8) ∨ (p.branchFields = .twoToFour ∧ (k = 2 ∨ k = 3 ∨ k = 4)) := by
  cases h : p.branchFields <;> simp [admitsField, h]
  omega

/-- An admitted field is one of the eight. -/
theorem lt_of_admitsField {p : Params} {k : Nat} (h : admitsField p k = true) : k < 8 := by
  have := (admitsField_iff p k).mp h
  omega

theorem exec_of_branchTest_none {i : Instr} {s : State} (h : isBranch i = true) (hnone : branchTest s i = none) :
    exec i s = .refused .notInSpec := by
  rw [exec_branch h, hnone]

/-- Settles O48: such a branch has no test. -/
theorem operandsOutOfRangeAreRefused : Obligations.OperandsOutOfRangeAreRefused := by
  refine ⟨fun s k t hfield i hi => ?fields, fun s b t hb => ?bt, fun s b a hb => ?bta,
    fun s k => admitsField_iff s.params k⟩
  case fields =>
    have hno : ¬ admitsField s.params k = true := by simp [hfield]
    simp only [List.mem_cons, List.not_mem_nil, or_false] at hi
    rcases hi with rfl | rfl | rfl | rfl | rfl | rfl | rfl | rfl | rfl | rfl <;>
      exact exec_of_branchTest_none rfl (if_neg hno)
  case bt => exact exec_of_branchTest_none rfl (if_neg (by omega))
  case bta => exact exec_of_branchTest_none rfl (if_neg (by omega))

/-- Settles O49, from where a branch that goes on went. -/
theorem branchWritesOnlyThePc : Obligations.BranchWritesOnlyThePc := by
  intro i s u hbranch hu
  obtain ⟨c, t, htest, hif⟩ := exec_branch_next hbranch hu
  refine ⟨(branchIf_next hif).1, c, t, htest, ?_⟩
  rw [branchIf_next_eq hif, State.withPc_pc]
  cases t <;> rfl

/-- A branch that goes on goes on alike from every state with the same pc and program. -/
theorem branchIf_next_congr {c : Bool} {t : Target} {s s' u : State} (h : branchIf c t s = .next u)
    (hpc : s'.pc = s.pc) (hend : s'.endAddr = s.endAddr) (htext : s'.text = s.text) (hmem : s'.mem = s.mem) :
    branchIf c t s' = .next (s'.withPc u.pc) := by
  cases c with
  | false => cases h; rw [branchIf, if_neg (by decide), advance, advance_pc, hpc]
  | true =>
    obtain ⟨halign, hheld, rfl⟩ := branchTo_next h
    have hadmitted : TargetAdmitted s' (branchTarget s.pc t) := by
      rw [TargetAdmitted, holdsStatement, htext, hmem, hend]
      exact ⟨halign, by simpa [holdsStatement] using hheld⟩
    rw [branchIf, if_pos rfl, hpc, branchTo_of_admitted hadmitted, State.withPc_pc]

/-- A branch that goes on goes on alike from every state in which its test is the same, too. -/
theorem exec_branch_next_congr {i : Instr} {s s' u : State} (h : isBranch i = true) (hu : exec i s = .next u)
    (htest : branchTest s' i = branchTest s i) (hpc : s'.pc = s.pc) (hend : s'.endAddr = s.endAddr)
    (htext : s'.text = s.text) (hmem : s'.mem = s.mem) : exec i s' = .next (s'.withPc u.pc) := by
  obtain ⟨c, t, hc, hif⟩ := exec_branch_next h hu
  rw [exec_of_branchTest (htest.trans hc), branchIf_next_congr hif hpc hend htext hmem]

/-- Settles O50: the test reads the Condition Register and the parameters only. -/
theorem branchDoesNotReadTheFpscr : Obligations.BranchDoesNotReadTheFpscr := by
  intro i s u f m n hbranch hu
  obtain ⟨c, t, -, hif⟩ := exec_branch_next hbranch hu
  have htest : branchTest { s with fpscr := f, msr20 := m, msr23 := n } i = branchTest s i := by cases i <;> rfl
  refine (exec_branch_next_congr hbranch hu htest rfl rfl rfl rfl).trans ?_
  conv_rhs => rw [(branchIf_next hif).1]
  rfl

/-! ## Branches that share a condition -/

/-- The field branch on bit `j` of field `k` being 1 is `bt 4k+j`. -/
theorem exec_fieldBranch_set {s : State} {j k : Nat} (t : Target) (hfield : admitsField s.params k = true)
    (hj : j < 4) : exec (fieldBranch true j k t) s = exec (.bt (4 * k + j) t) s := by
  have hk := lt_of_admitsField hfield
  have hbt : branchTest s (.bt (4 * k + j) t) = some (regBit s.cr (4 * k + j), t) := if_pos (by omega)
  have hfb : branchTest s (fieldBranch true j k t) = some (regBit s.cr (4 * k + j), t) := by
    interval_cases j <;> exact if_pos hfield
  rw [exec_of_branchTest hbt, exec_of_branchTest hfb]

/-- Settles O51: `bta` is `bt` with an address. -/
theorem bitBranchIsTheFieldBranchOnItsBit : Obligations.BitBranchIsTheFieldBranchOnItsBit := fun _ _ a hfield =>
  ⟨(exec_fieldBranch_set (j := 0) (.addr a) hfield (by decide)).symm,
    (exec_fieldBranch_set (j := 1) (.addr a) hfield (by decide)).symm,
    (exec_fieldBranch_set (j := 2) (.addr a) hfield (by decide)).symm,
    (exec_fieldBranch_set (j := 3) (.addr a) hfield (by decide)).symm⟩

/-- `bta` to an admitted target: to it where the bit is 1, else to the next instruction. -/
theorem exec_bta_of_admitted {s : State} {b : Nat} {a : Word} (hb : b < 32) (ha : TargetAdmitted s a) :
    exec (.bta b a) s = .next (s.withPc (if regBit s.cr b then a else nextPc s.pc)) := by
  obtain ⟨htaken, huntaken⟩ := branchesOnASetBit s b a hb
  cases hbit : regBit s.cr b with
  | true => exact htaken hbit ha
  | false => exact huntaken hbit

/-- Settles O37: the field just stored is the one the branch tests. -/
theorem storedFieldIsWhatTheBranchTests : Obligations.StoredFieldIsWhatTheBranchTests := by
  intro f s t a h hfield htarget
  obtain ⟨h2, h4, -, ht⟩ := execFpscrToCr_next (show execFpscrToCr f 4 s = _ from h)
  have hfield : admitsField t.params f = true := by rw [ht]; exact hfield
  have htarget : TargetAdmitted t a := by rw [ht]; exact htarget
  have hbit : ∀ j < 4, exec (.bta (4 * f + j) a) t =
      .next (t.withPc (if regBit s.fpscr (16 + j) then a else nextPc t.pc)) := fun j hj => by
    have hcopy : regBit t.cr (4 * f + j) = regBit s.fpscr (16 + j) := by
      rw [ht]; exact regBit_copyField_inside _ _ _ (by omega) hj
    rw [← hcopy]
    exact exec_bta_of_admitted (by omega) htarget
  obtain ⟨hblt, hbgt, hbeq, hbun⟩ := bitBranchIsTheFieldBranchOnItsBit t f a hfield
  exact ⟨hblt ▸ hbit 0 (by decide), hbgt ▸ hbit 1 (by decide), hbeq ▸ hbit 2 (by decide), hbun ▸ hbit 3 (by decide)⟩

/-- Settles O38: CR1 holds the bit just recorded. -/
theorem dotFormThenBitBranchTestsStatus : Obligations.DotFormThenBitBranchTestsStatus := by
  intro op s t j a h hj htarget
  obtain ⟨-, rfl⟩ := completeFp_next (show completeFp true (fpOut op s) s = _ from h)
  have hbit : regBit (advance (recordStatus true (fpOut op s) s)).cr (4 + j) =
      regBit (advance (recordStatus true (fpOut op s) s)).fpscr j := regBit_copyField_cr1 _ _ hj
  rw [← hbit]
  exact exec_bta_of_admitted (by omega) htarget

/-- The word of `bt` runs as `bt`, whether BRANCH_FIELDS admits the field branch it decodes to or not. -/
theorem execWord_fieldBranch_set (s : State) {j : Nat} (k : Nat) (t : Target) (hj : j < 4) :
    execWord (fieldBranch true j k t) s = exec (.bt (4 * k + j) t) s := by
  have hword : execWord (fieldBranch true j k t) s =
      exec (if admitsField s.params k then fieldBranch true j k t else .bt (4 * k + j) t) s := by
    interval_cases j <;> rfl
  rw [hword]
  split
  · next hfield => exact exec_fieldBranch_set t hfield hj
  · rfl

/-- Settles O42: the test of `bt`, and its word through the field branch it decodes to. -/
theorem synonymBranchesOnASetBit : Obligations.SynonymBranchesOnASetBit := by
  refine fun s b hb => ⟨fun t => branchesWhen_of_branchTest (if_pos hb), fun a => rfl, fun bd w i hw hi => ?_⟩
  cases hi.symm.trans (decodeOfEncodeIsTheCanonicalInstruction _ _ hw)
  rw [Instr.canonical, execWord_fieldBranch_set s _ _ (Nat.mod_lt _ (by decide)), Nat.div_add_mod]

/-! ## The two readings of `ble` and `bge` -/

/-- Settles O44: the branches have the same condition under this reading. -/
theorem singleBitReadingIsBngAndBnl : Obligations.SingleBitReadingIsBngAndBnl := by
  intro s k t hread
  refine ⟨?_, ?_⟩
  · simp only [exec, execBle, execBng, hread]
  · simp only [exec, execBge, execBnl, hread]

section SingleBit

variable {s : State} {k : Nat} (t : Target) (hfield : admitsField s.params k = true)
  (hread : s.params.leGeReading = .singleBit)
include hfield hread

/-- The condition of `ble` under the single-bit reading (R144). -/
theorem branchTest_ble_singleBit : branchTest s (.ble k t) = some (!regBit s.cr (4 * k + 1), t) := by
  rw [branchTest, if_pos hfield, hread]

/-- The condition of `bge` under the single-bit reading (R144). -/
theorem branchTest_bge_singleBit : branchTest s (.bge k t) = some (!regBit s.cr (4 * k), t) := by
  rw [branchTest, if_pos hfield, hread]

end SingleBit

/-- The bits of a field are those of its value. -/
theorem regBit_eq_testBit_fieldValue (x : Word) (k : Nat) :
    regBit x (4 * k) = (fieldValue x k).testBit 3 ∧ regBit x (4 * k + 1) = (fieldValue x k).testBit 2 ∧
      regBit x (4 * k + 2) = (fieldValue x k).testBit 1 ∧ regBit x (4 * k + 3) = (fieldValue x k).testBit 0 := by
  have hbits : ∀ b0 b1 b2 b3 : Bool, let v := 8 * b0.toNat + 4 * b1.toNat + 2 * b2.toNat + b3.toNat
      b0 = v.testBit 3 ∧ b1 = v.testBit 2 ∧ b2 = v.testBit 1 ∧ b3 = v.testBit 0 := by decide
  exact hbits _ _ _ _

theorem fieldValue_lt (x : Word) (k : Nat) : fieldValue x k < 16 := by
  have hbound : ∀ b0 b1 b2 b3 : Bool, 8 * b0.toNat + 4 * b1.toNat + 2 * b2.toNat + b3.toNat < 16 := by decide
  exact hbound _ _ _ _

/-- Off the listed values the two conditions of `ble` are one (R144). -/
theorem branchTest_ble_agrees {s : State} {k : Nat} (t : Target)
    (h : fieldValue s.cr k ∉ [0, 1, 6, 7, 12, 13, 14, 15]) :
    branchTest (withReading s .singleBit) (.ble k t) = branchTest (withReading s .sourceLiteral) (.ble k t) := by
  have hvalue : ∀ v : Nat, v < 16 → v ∉ [0, 1, 6, 7, 12, 13, 14, 15] →
      (!v.testBit 2) = (v.testBit 3 || v.testBit 1) := by decide
  obtain ⟨h0, h1, h2, -⟩ := regBit_eq_testBit_fieldValue s.cr k
  have hcond : (!regBit s.cr (4 * k + 1)) = (regBit s.cr (4 * k) || regBit s.cr (4 * k + 2)) := by
    rw [h0, h1, h2, hvalue _ (fieldValue_lt _ _) h]
  show (if admitsField s.params k then some (!regBit s.cr (4 * k + 1), t) else none) = _
  rw [hcond]; rfl

/-- Off the listed values the two conditions of `bge` are one (R144). -/
theorem branchTest_bge_agrees {s : State} {k : Nat} (t : Target)
    (h : fieldValue s.cr k ∉ [0, 1, 10, 11, 12, 13, 14, 15]) :
    branchTest (withReading s .singleBit) (.bge k t) = branchTest (withReading s .sourceLiteral) (.bge k t) := by
  have hvalue : ∀ v : Nat, v < 16 → v ∉ [0, 1, 10, 11, 12, 13, 14, 15] →
      (!v.testBit 3) = (v.testBit 2 || v.testBit 1) := by decide
  obtain ⟨h0, h1, h2, -⟩ := regBit_eq_testBit_fieldValue s.cr k
  have hcond : (!regBit s.cr (4 * k)) = (regBit s.cr (4 * k + 1) || regBit s.cr (4 * k + 2)) := by
    rw [h0, h1, h2, hvalue _ (fieldValue_lt _ _) h]
  show (if admitsField s.params k then some (!regBit s.cr (4 * k), t) else none) = _
  rw [hcond]; rfl

/-- A branch whose test is the same under two readings goes on alike under both. -/
theorem exec_withReading_next {i : Instr} {s u : State} {r r' : LeGeReading} (h : isBranch i = true)
    (htest : branchTest (withReading s r') i = branchTest (withReading s r) i)
    (hu : exec i (withReading s r) = .next u) : exec i (withReading s r') = .next (withReading u r') := by
  obtain ⟨c, t, -, hif⟩ := exec_branch_next h hu
  refine (exec_branch_next_congr h hu htest rfl rfl rfl rfl).trans ?_
  conv_rhs => rw [(branchIf_next hif).1]
  rfl

/-- Settles O45: the test is the same under both readings. -/
theorem readingsAgreeOffTheListedValues : Obligations.ReadingsAgreeOffTheListedValues := fun _ _ t _ =>
  ⟨fun hoff => exec_withReading_next rfl (branchTest_ble_agrees t hoff),
    fun hoff => exec_withReading_next rfl (branchTest_bge_agrees t hoff)⟩

/-- A branch on a condition of known value. -/
theorem branchesWhen_of_eq {i : Instr} {s : State} {c c' : Bool} {t : Target}
    (h : branchTest s i = some (c, t)) (hc : c = c') : BranchesWhen i s t c' :=
  hc ▸ branchesWhen_of_branchTest h

section Readings

variable {s : State} {k : Nat} (t : Target) (hfield : admitsField s.params k = true)
include hfield

/-- `ble` under both readings, by the field's value. -/
theorem branchesWhen_ble_readings {c c' : Bool}
    (hsource : ((fieldValue s.cr k).testBit 3 || (fieldValue s.cr k).testBit 1) = c)
    (hsingle : (!(fieldValue s.cr k).testBit 2) = c') :
    BranchesWhen (.ble k t) (withReading s .sourceLiteral) t c ∧
      BranchesWhen (.ble k t) (withReading s .singleBit) t c' := by
  obtain ⟨h0, h1, h2, -⟩ := regBit_eq_testBit_fieldValue s.cr k
  rw [← h0, ← h2] at hsource
  rw [← h1] at hsingle
  exact ⟨branchesWhen_of_eq (branchTest_ble_sourceLiteral t hfield rfl) hsource,
    branchesWhen_of_eq (branchTest_ble_singleBit t hfield rfl) hsingle⟩

/-- `bge` under both readings, by the field's value. -/
theorem branchesWhen_bge_readings {c c' : Bool}
    (hsource : ((fieldValue s.cr k).testBit 2 || (fieldValue s.cr k).testBit 1) = c)
    (hsingle : (!(fieldValue s.cr k).testBit 3) = c') :
    BranchesWhen (.bge k t) (withReading s .sourceLiteral) t c ∧
      BranchesWhen (.bge k t) (withReading s .singleBit) t c' := by
  obtain ⟨h0, h1, h2, -⟩ := regBit_eq_testBit_fieldValue s.cr k
  rw [← h1, ← h2] at hsource
  rw [← h0] at hsingle
  exact ⟨branchesWhen_of_eq (branchTest_bge_sourceLiteral t hfield rfl) hsource,
    branchesWhen_of_eq (branchTest_bge_singleBit t hfield rfl) hsingle⟩

end Readings

/-- Settles O46: the conditions of both readings on each listed value. -/
theorem readingsDifferOnTheListedValues : Obligations.ReadingsDifferOnTheListedValues := by
  intro s k t hfield
  refine ⟨fun hv => ?ble, fun hv => ?bge, fun hv i hi => ?both⟩
  case ble =>
    have hvalue : ∀ v : Nat, v ∈ [6, 7, 12, 13, 14, 15] →
        (v.testBit 3 || v.testBit 1) = true ∧ (!v.testBit 2) = false := by decide
    exact branchesWhen_ble_readings t hfield (hvalue _ hv).1 (hvalue _ hv).2
  case bge =>
    have hvalue : ∀ v : Nat, v ∈ [10, 11, 12, 13, 14, 15] →
        (v.testBit 2 || v.testBit 1) = true ∧ (!v.testBit 3) = false := by decide
    exact branchesWhen_bge_readings t hfield (hvalue _ hv).1 (hvalue _ hv).2
  case both =>
    have hvalue : ∀ v : Nat, v ∈ [0, 1] →
        v.testBit 3 = false ∧ v.testBit 2 = false ∧ v.testBit 1 = false := by decide
    obtain ⟨h3, h2, h1⟩ := hvalue _ hv
    simp only [List.mem_cons, List.not_mem_nil, or_false] at hi
    rcases hi with rfl | rfl
    · exact branchesWhen_ble_readings t hfield (by rw [h3, h1]; rfl) (by rw [h2]; rfl)
    · exact branchesWhen_bge_readings t hfield (by rw [h2, h1]; rfl) (by rw [h3]; rfl)

/-! ## One-hot fields -/

/-- Settles O52: the ten tests on the bits of each of the four values (section 6). -/
theorem oneHotFieldDecidesTheBranches : Obligations.OneHotFieldDecidesTheBranches := by
  intro s k t hfield hread row hrow hvalue
  obtain ⟨h0, h1, h2, h3⟩ := regBit_eq_testBit_fieldValue s.cr k
  rw [hvalue] at h0 h1 h2 h3
  suffices htests : (∀ i ∈ row.2.1, branchTest s i = some (true, t)) ∧
      ∀ i ∈ row.2.2, branchTest s i = some (false, t) from
    ⟨fun i hi => branchesWhen_of_branchTest (htests.1 i hi), fun i hi => branchesWhen_of_branchTest (htests.2 i hi)⟩
  simp only [List.mem_cons, List.not_mem_nil, or_false] at hrow
  rcases hrow with rfl | rfl | rfl | rfl
  all_goals simp [branchTest, hfield, hread, h0, h1, h2, h3, Nat.testBit]

end Sys2Proof.Machine
end

section
/-! PROOFS. The step: what is fetched and what is refused (20_memory.md sections 2 and 3, 60_exceptions.md R154,
70_reset_and_hazards.md section 5). -/

namespace Sys2Proof.Machine

/-! ## What stands at an address -/

theorem statementAt_of_text {s : State} {a : Nat} {i : Instr} (h : entryAt s.text a = some i) :
    statementAt s a = .statement i := by
  rw [statementAt, h]

section Bytes

variable {s : State} {a : Nat} {bytes : List Byte} (htext : entryAt s.text a = none)
  (hmem : readInsnBytes s.mem a = some bytes)
include htext hmem

theorem statementAt_of_word {i : Instr} (h : (decodeBytes bytes).1 = .instr i) : statementAt s a = .word i := by
  simp only [statementAt, htext, hmem, h]

theorem statementAt_of_reject {r : Reject} (h : (decodeBytes bytes).1 = .reject r) :
    statementAt s a = .stop (refusalOf r) := by
  simp only [statementAt, htext, hmem, h]

end Bytes

theorem statementAt_of_empty {s : State} {a : Word} (h : holdsStatement s a = false) :
    statementAt s a.toNat = .stop .pcOutsideProgram := by
  obtain ⟨htext, hmem⟩ : entryAt s.text a.toNat = none ∧ readInsnBytes s.mem a.toNat = none := by
    simpa [holdsStatement] using h
  rw [statementAt, htext, hmem]

/-! ## The fetch -/

/-- The fetch where none of its checks stops it. -/
theorem fetch_of_ready {s : State} (hp : NoPendingEnabledException s) (he : s.endAddr ≠ some s.pc)
    (ha : aligned s.pc = true) : fetch s = statementAt s s.pc.toNat := by
  rw [fetch, if_neg (by simp [noPending_iff.mp hp]), if_neg he, if_pos ha]

theorem step_of_statement {s : State} {i : Instr} (h : fetch s = .statement i) : step s = exec i s := by
  rw [step, h]

theorem step_of_word {s : State} {i : Instr} (h : fetch s = .word i) : step s = execWord i s := by
  rw [step, h]

theorem step_of_stop {s : State} {r : Refusal} (h : fetch s = .stop r) : step s = .refused r := by
  rw [step, h]

/-- Settles O10: a statement of the text comes before any bytes. -/
theorem stepRunsTheStatementAtThePc : Obligations.StepRunsTheStatementAtThePc := fun _ _ hp he ha htext =>
  step_of_statement ((fetch_of_ready hp he ha).trans (statementAt_of_text htext))

/-- Settles O14: the check of END_ADDR. -/
theorem stepEndsAtEndAddr : Obligations.StepEndsAtEndAddr := by
  intro s hp hfinal
  refine step_of_stop ?_
  rw [fetch, if_neg (by simp [noPending_iff.mp hp]), if_pos hfinal]

/-- Settles O13: the alignment check, and an address that holds no statement. -/
theorem stepRefusesAPcOutsideTheProgram : Obligations.StepRefusesAPcOutsideTheProgram := by
  refine ⟨fun a => by simp [aligned], fun s hp he => ⟨fun ha => step_of_stop ?_, fun ha hempty => step_of_stop ?_⟩⟩
  · rw [fetch, if_neg (by simp [noPending_iff.mp hp]), if_neg he, if_neg (by simp [ha])]
  · rw [fetch_of_ready hp he ha, statementAt_of_empty hempty]

/-- A pending enabled exception stops the step (R154). -/
theorem step_of_pending {s : State} (h : ¬ NoPendingEnabledException s) :
    step s = .refused .pendingEnabledException := by
  refine step_of_stop ?_
  rw [fetch, if_pos (by simpa [noPending_iff] using h)]

/-! ## Words -/

/-- The row that runs is the decoded one where BRANCH_FIELDS admits its field. -/
theorem admittedRow_of_admitted {p : Params} {i : Instr}
    (h : ∀ k t, i ∈ [.blt k t, .bgt k t, .beq k t, .bun k t] → admitsField p k = true) : admittedRow p i = i := by
  cases i with
  | blt k t => exact if_pos (h k t (by simp))
  | bgt k t => exact if_pos (h k t (by simp))
  | beq k t => exact if_pos (h k t (by simp))
  | bun k t => exact if_pos (h k t (by simp))
  | _ => rfl

/-- Settles O11: the fetch of a word, the reading of its bytes, and the three cases of `execWord`. -/
theorem stepRunsTheDecodedInstruction : Obligations.StepRunsTheDecodedInstruction := by
  refine ⟨fun s i bytes hp he ha htext hmem hdec => ?fetched, fun m a b0 b1 b2 b3 h0 h1 h2 h3 => ?bytes,
    fun _ _ _ _ _ => rfl, fun i s hc hadmit => execWord_of_admitted hc (admittedRow_of_admitted hadmit),
    fun s k t _ => ?bt, fun i s f hf => ?compare⟩
  case fetched => exact step_of_word ((fetch_of_ready hp he ha).trans (statementAt_of_word htext hmem hdec))
  case bytes => simp only [readInsnBytes, h0, h1, h2, h3]
  case bt =>
    exact ⟨execWord_fieldBranch_set (j := 0) s k t (by decide), execWord_fieldBranch_set (j := 1) s k t (by decide),
      execWord_fieldBranch_set (j := 2) s k t (by decide), execWord_fieldBranch_set (j := 3) s k t (by decide)⟩
  case compare => simp only [execWord, hf]

theorem decodeBranch_ne_notSpecified (w : Word) : decodeBranch w ≠ .reject .notSpecified := by
  unfold decodeBranch
  repeat' split
  all_goals simp

/-- The extended opcodes recognised as FPSCR-manipulating (93 GK19). -/
theorem decodeFpscr_notSpecified_iff (w : Word) :
    decodeFpscr w = .reject .notSpecified ↔ (insnBits w 21 30).toNat ∈ [583, 134, 70, 38] := by
  simp only [decodeFpscr, List.mem_cons, List.not_mem_nil, or_false]
  split
  · next hxo => split <;> simp [hxo]
  · split
    · next hxo => split <;> simp [hxo]
    · split
      · next hxo => simp [hxo]
      · next hxo => simp [hxo]

/-- The FPSCR-manipulating words are of no floating-point row. -/
theorem fpRowOf_of_manipulating {w : Word} (h63 : insnBits w 0 5 = 63#6)
    (hxo : (insnBits w 21 30).toNat ∈ [583, 134, 70, 38]) : fpRowOf w = none := by
  refine fpRowOf_manipulating h63 ?_
  simp only [List.mem_cons, List.not_mem_nil, or_false] at hxo ⊢
  exact hxo.imp BitVec.eq_of_toNat_eq (.imp BitVec.eq_of_toNat_eq (.imp BitVec.eq_of_toNat_eq BitVec.eq_of_toNat_eq))

/-- The words the decoder rejects as not specified. -/
theorem decode_notSpecified_iff (w : Word) : decode w = .reject .notSpecified ↔
    insnBits w 0 5 = 63#6 ∧ (insnBits w 21 30).toNat ∈ [583, 134, 70, 38] := by
  constructor
  · intro h
    rw [decode] at h
    split at h
    · exact absurd h (decodeBranch_ne_notSpecified w)
    · split at h
      · split at h <;> cases h
      · split at h
        · next h63 => exact ⟨h63, (decodeFpscr_notSpecified_iff w).mp h⟩
        · cases h
  · rintro ⟨h63, hxo⟩
    rw [decode, if_neg (by rw [h63]; decide), fpRowOf_of_manipulating h63 hxo, if_pos h63]
    exact (decodeFpscr_notSpecified_iff w).mpr hxo

/-- Settles O12: which words, and the refusal of each kind. -/
theorem stepRefusesWordsOfNoRow : Obligations.StepRefusesWordsOfNoRow := by
  refine ⟨decode_notSpecified_iff, fun s bytes hp he ha htext hmem => ?_⟩
  have hstop : ∀ r, (decodeBytes bytes).1 = .reject r → step s = .refused (refusalOf r) := fun r hr =>
    step_of_stop ((fetch_of_ready hp he ha).trans (statementAt_of_reject htext hmem hr))
  exact ⟨hstop .notInSpec, hstop .notSpecified⟩

end Sys2Proof.Machine
end

section
/-! PROOFS. The whole machine: what no instruction writes, the writers of the Condition Register, and the
invariants of a step and of a run (10_state.md sections 2 and 3, 70_reset_and_hazards.md). -/

namespace Sys2Proof.Machine

/-! ## What no instruction writes -/

/-- Settles O53: status recorded, an FPSCR field stored, or the pc moved leaves the program alone. -/
theorem noInstructionWritesMsrOrProgram : Obligations.NoInstructionWritesMsrOrProgram := by
  intro i s t h
  have hself : SameProgram s s := ⟨rfl, rfl, rfl, rfl, rfl, fun _ => rfl⟩
  rcases exec_next h with ⟨dot, op, -, -, rfl⟩ | ⟨f, src, -, -, -, -, rfl⟩ | ⟨ht, -⟩
  · exact (sameProgram_recordStatus dot _ s).withPc _
  · exact hself
  · rw [ht]; exact hself.withPc _

/-- The bytes are not only read alike but the same list. -/
theorem exec_mem {i : Instr} {s t : State} (h : exec i s = .next t) : t.mem = s.mem := by
  rcases exec_next h with ⟨dot, op, -, -, rfl⟩ | ⟨f, src, -, -, -, -, rfl⟩ | ⟨ht, -⟩
  · rfl
  · rfl
  · rw [ht]; rfl

/-- Settles O54: neither Record nor XferEffect writes these bits. -/
theorem controlBitsNeverChange : Obligations.ControlBitsNeverChange := by
  intro i s t h j hj
  rcases exec_next h with ⟨dot, op, -, -, rfl⟩ | ⟨f, src, -, -, -, -, rfl⟩ | ⟨ht, -⟩
  · exact regBit_record_control _ _ _ _ hj
  · exact regBit_xferFpscr_control _ _ _ hj
  · rw [ht, State.withPc_fpscr]

/-- Settles O55: Record's status bits are sticky, and `keep` writes none. -/
theorem statusBitsOnlyRise : Obligations.StatusBitsOnlyRise := by
  intro i s t e hkeep h hbit
  rcases exec_next h with ⟨dot, op, -, -, rfl⟩ | ⟨f, src, -, -, -, -, rfl⟩ | ⟨ht, -⟩
  · rw [advance_fpscr, recordStatus_fpscr, regBit_record_status, hbit, Bool.true_or]
  · rw [advance_fpscr, State.withFpscr_fpscr, xferFpscr, hkeep]; exact hbit
  · rw [ht, State.withPc_fpscr, hbit]

/-! ## The Condition Register -/

/-- A bit a field copy changes is of that field. -/
theorem field_of_copyField_ne {x y : Word} {k src j : Nat}
    (h : regBit (copyField x k y src) j ≠ regBit x j) : 4 * k ≤ j ∧ j < 4 * k + 4 := by
  by_contra hout
  exact h (regBit_copyField_outside x y src (by omega))

/-- An instruction that changes a bit of the Condition Register: a dot form in CR1, or `<fpscr-to-cr>` in the
field it names. -/
theorem exec_changes_cr {i : Instr} {s t : State} {j : Nat} (h : exec i s = .next t)
    (hne : regBit t.cr j ≠ regBit s.cr j) :
    (4 ≤ j ∧ j < 8 ∧ ∃ op, i = .fpinstrDot op) ∨ (8 ≤ j ∧ j < 20 ∧ ∃ src, i = .fpscrToCr (j / 4) src) := by
  rcases exec_next h with ⟨dot, op, hi, -, rfl⟩ | ⟨f, src, hi, h2, h4, -, rfl⟩ | ⟨ht, -⟩
  · cases dot with
    | false => exact absurd rfl hne
    | true =>
      obtain ⟨hlo, hhi⟩ := field_of_copyField_ne (k := 1) hne
      exact .inl ⟨by omega, by omega, op, hi⟩
  · obtain ⟨hlo, hhi⟩ := field_of_copyField_ne (k := f) hne
    refine .inr ⟨by omega, by omega, src, ?_⟩
    rw [hi, show j / 4 = f by omega]
  · exact absurd (by rw [ht, State.withPc_cr]) hne

section WithCr

variable (s : State) (c : Word)

/-- Recording reads the Condition Register only to keep it. -/
theorem recordStatus_withCr (dot : Bool) (out : FpOut) :
    recordStatus dot out (s.withCr c) = (recordStatus dot out s).withCr (recordStatus dot out (s.withCr c)).cr := rfl

/-- Storing a field on another Condition Register. -/
theorem advance_store_withCr (x y f : Word) :
    advance (((s.withCr c).withCr x).withFpscr f) = (advance ((s.withCr y).withFpscr f)).withCr x := rfl

end WithCr

/-- A floating-point instruction traps and records alike whatever the Condition Register holds. -/
theorem completeFp_withCr {dot : Bool} {out : FpOut} {s t : State} (h : completeFp dot out s = .next t) (c : Word) :
    ∃ u, completeFp dot out (s.withCr c) = .next u ∧ u = t.withCr u.cr := by
  obtain ⟨htrap, rfl⟩ := completeFp_next h
  exact ⟨_, completeFp_of_not_trap (s := s.withCr c) htrap, congrArg advance (recordStatus_withCr s c dot out)⟩

/-- An instruction that is no branch does the same whatever the Condition Register holds. -/
theorem exec_withCr {i : Instr} {s t : State} (hbranch : isBranch i = false) (h : exec i s = .next t) (c : Word) :
    ∃ u, exec i (s.withCr c) = .next u ∧ u = t.withCr u.cr := by
  cases i with
  | fpinstr op => exact completeFp_withCr (dot := false) h c
  | fpinstrDot op => exact completeFp_withCr (dot := true) h c
  | mtfsf => cases h
  | fpscrToCr f src =>
    obtain ⟨h2, h4, hsrc, rfl⟩ := execFpscrToCr_next (show execFpscrToCr f src s = _ from h)
    exact ⟨_, exec_fpscrToCr (s.withCr c) h2 h4 hsrc, advance_store_withCr _ _ _ _ _⟩
  | _ => cases hbranch

/-- A step that changes a bit of the Condition Register: a dot form, `<fpscr-to-cr>`, or a comparison's word. -/
theorem step_changes_cr {s t : State} {j : Nat} (h : step s = .next t) (hne : regBit t.cr j ≠ regBit s.cr j) :
    (4 ≤ j ∧ j < 8 ∧ ∃ op, fetch s = .statement (.fpinstrDot op) ∨ fetch s = .word (.fpinstrDot op)) ∨
      (8 ≤ j ∧ j < 20 ∧
        ((∃ src, fetch s = .statement (.fpscrToCr (j / 4) src) ∨ fetch s = .word (.fpscrToCr (j / 4) src)) ∨
          ∃ i, fetch s = .word i ∧ compareField i = some (j / 4))) := by
  rcases step_cases h with ⟨i, hfetch, hexec⟩ | ⟨i, hfetch, -, hexec⟩ | ⟨i, f, u, hfetch, hfield, h2, h4, hexec, rfl⟩
  · rcases exec_changes_cr hexec hne with ⟨hlo, hhi, op, rfl⟩ | ⟨hlo, hhi, src, rfl⟩
    · exact .inl ⟨hlo, hhi, op, .inl hfetch⟩
    · exact .inr ⟨hlo, hhi, .inl ⟨src, .inl hfetch⟩⟩
  · rcases admittedRow_eq_or_bt s.params i with hrow | ⟨b, g, hrow⟩
    · rw [hrow] at hexec
      rcases exec_changes_cr hexec hne with ⟨hlo, hhi, op, rfl⟩ | ⟨hlo, hhi, src, rfl⟩
      · exact .inl ⟨hlo, hhi, op, .inr hfetch⟩
      · exact .inr ⟨hlo, hhi, .inl ⟨src, .inr hfetch⟩⟩
    · rw [hrow] at hexec
      rcases exec_changes_cr hexec hne with ⟨-, -, op, hi⟩ | ⟨-, -, src, hi⟩ <;> cases hi
  · obtain ⟨-, op, rfl⟩ := compareField_lt hfield
    have hu : regBit u.cr j = regBit s.cr j := by
      by_contra hne'
      rcases exec_changes_cr hexec hne' with ⟨-, -, op', hi⟩ | ⟨-, -, src, hi⟩ <;> cases hi
    rw [← hu, storeCompare_cr] at hne
    obtain ⟨hlo, hhi⟩ := field_of_copyField_ne hne
    refine .inr ⟨by omega, by omega, .inr ⟨_, hfetch, ?_⟩⟩
    rw [hfield, show j / 4 = f by omega]

/-- Settles O56: which instructions and steps change a bit, what they write, and what they read. -/
theorem writersOfTheConditionRegister : Obligations.WritersOfTheConditionRegister := by
  refine ⟨fun s t h => ⟨fun j hj => ?stepKept, fun j h4 h8 hne => ?stepCr1, fun j h8 h20 hne => ?stepField⟩,
    fun i s t h => ⟨fun j hj => ?kept, fun j h4 h8 hne => ?cr1, fun j h8 h20 hne => ?field, ?copied, ?stored,
      fun hbranch => exec_withCr hbranch h⟩⟩
  case stepKept =>
    by_contra hne
    rcases step_changes_cr h hne with ⟨hlo, hhi, -⟩ | ⟨hlo, hhi, -⟩ <;> omega
  case stepCr1 =>
    rcases step_changes_cr h hne with ⟨-, -, hdot⟩ | ⟨hlo, -, -⟩
    · exact hdot
    · omega
  case stepField =>
    rcases step_changes_cr h hne with ⟨-, hhi, -⟩ | ⟨-, -, hwriter⟩
    · omega
    · exact hwriter
  case kept =>
    by_contra hne
    rcases exec_changes_cr h hne with ⟨hlo, hhi, -⟩ | ⟨hlo, hhi, -⟩ <;> omega
  case cr1 =>
    rcases exec_changes_cr h hne with ⟨-, -, hdot⟩ | ⟨hlo, -, -⟩
    · exact hdot
    · omega
  case field =>
    rcases exec_changes_cr h hne with ⟨-, hhi, -⟩ | ⟨-, -, hwriter⟩
    · omega
    · exact hwriter
  case copied =>
    rintro op rfl j hj
    obtain ⟨-, rfl⟩ := completeFp_next (show completeFp true (fpOut op s) s = _ from h)
    exact regBit_copyField_cr1 _ _ hj
  case stored =>
    rintro f src rfl j hj
    obtain ⟨-, h4, -, rfl⟩ := execFpscrToCr_next (show execFpscrToCr f src s = _ from h)
    exact regBit_copyField_inside _ _ _ (by omega) hj

/-! ## Pending exceptions and summaries -/

/-- No instruction that goes on makes a pending enabled exception: an enabled event would have trapped. -/
theorem exec_keeps_noPending {i : Instr} {s t : State} (hp : NoPendingEnabledException s)
    (h : exec i s = .next t) : NoPendingEnabledException t := by
  rcases exec_next h with ⟨dot, op, -, htrap, rfl⟩ | ⟨f, src, -, -, -, -, rfl⟩ | ⟨ht, -⟩
  · rintro e he ⟨hstatus, henable, hvalid⟩
    rw [advance_fpscr, recordStatus_fpscr, regBit_record_status, Bool.or_eq_true] at hstatus
    rw [advance_fpscr, recordStatus_fpscr, regBit_record_enable] at henable
    rcases hstatus with hold | hev
    · exact hp e he ⟨hold, henable, hvalid⟩
    · have hmsr : s.msr20 = true ∨ s.msr23 = true := by simpa [enablesValid] using hvalid
      rw [trap_iff.mpr ⟨hmsr, e, List.contains_iff_mem.mp hev, henable⟩] at htrap
      cases htrap
  · rintro e he ⟨hstatus, henable, hvalid⟩
    rw [advance_fpscr, State.withFpscr_fpscr] at hstatus henable
    rw [regBit_xferFpscr_control _ _ _ (.inr (enableBit_range e).1)] at henable
    exact hp e he ⟨regBit_of_xferFpscr_status hstatus, henable, hvalid⟩
  · rw [ht]; exact hp

/-- Settles O15: the step's check, and that `exec` keeps the premise. -/
theorem pendingEnabledExceptionIsRefusedAndNeverMade : Obligations.PendingEnabledExceptionIsRefusedAndNeverMade :=
  ⟨fun _ => step_of_pending, fun _ _ _ => exec_keeps_noPending⟩

/-- An instruction that goes on keeps the summaries consistent. -/
theorem exec_keeps_summaries {i : Instr} {s t : State} (hs : SummaryConsistent s) (h : exec i s = .next t) :
    SummaryConsistent t := by
  rcases exec_next h with ⟨dot, op, -, -, rfl⟩ | ⟨f, src, -, -, -, -, rfl⟩ | ⟨ht, -⟩
  · exact record_consistent _ _ _ _
  · cases hx : s.params.xferEffect with
    | keep =>
      have hfpscr : xferFpscr s.params s.fpscr src = s.fpscr := by rw [xferFpscr, hx]
      simpa [SummaryConsistent, hfpscr] using hs
    | clearCopiedStatus => exact xferFpscr_consistent s.fpscr src hx
  · rw [ht]; exact hs

/-- Settles O57: Record recomputes the summaries, and every instruction keeps them. -/
theorem summariesAreConsistentFromTheFirstFloatingPoint :
    Obligations.SummariesAreConsistentFromTheFirstFloatingPoint := by
  refine ⟨fun dot op s => ?_, fun _ _ _ => exec_keeps_summaries⟩
  obtain ⟨t, hleft, hfpscr, hparams⟩ := stateLeft_fpForm_fpscr dot op s
  refine ⟨t, hleft, ?_⟩
  rw [SummaryConsistent, hfpscr, hparams]
  exact record_consistent _ _ _ _

/-! ## The invariant of a step -/

theorem aligned_nextPc {a : Word} (h : aligned a = true) : aligned (nextPc a) = true := by
  simp only [aligned, nextPc, beq_iff_eq, BitVec.toNat_add, BitVec.toNat_ofNat] at *
  omega

/-- An instruction keeps the pc aligned. -/
theorem exec_keeps_aligned {i : Instr} {s t : State} (ha : aligned s.pc = true) (h : exec i s = .next t) :
    aligned t.pc = true := by
  rcases exec_next h with ⟨dot, op, -, -, rfl⟩ | ⟨f, src, -, -, -, -, rfl⟩ | ⟨-, hnext | htarget⟩
  · exact aligned_nextPc ha
  · exact aligned_nextPc ha
  · rw [hnext]; exact aligned_nextPc ha
  · exact htarget

theorem exec_keeps_runInvariant {i : Instr} {s t : State} (hs : RunInvariant s) (h : exec i s = .next t) :
    RunInvariant t := by
  obtain ⟨-, -, -, htext, -, -⟩ := noInstructionWritesMsrOrProgram i s t h
  exact ⟨exec_mem h ▸ hs.mem_wf, htext ▸ hs.text_wf, exec_keeps_aligned hs.pc_aligned h,
    exec_keeps_noPending hs.no_pending h, exec_keeps_summaries hs.summaries h⟩

/-- What every instruction and the storing of a comparison's result keep, a step keeps. -/
theorem step_keeps {P : State → Prop} (hexec : ∀ i s t, P s → exec i s = .next t → P t)
    (hstore : ∀ f s, P s → P (storeCompare f s)) {s t : State} (hs : P s) (h : step s = .next t) : P t := by
  obtain ⟨i, u, hu, rfl | ⟨f, -, -, -, rfl⟩⟩ := step_next h
  · exact hexec i s t hs hu
  · exact hstore f u (hexec i s u hs hu)

/-- Settles O58: the storing of a comparison's result writes the Condition Register, which the invariant does
not read. -/
theorem stepKeepsTheInvariant : Obligations.StepKeepsTheInvariant := fun _ _ =>
  step_keeps (fun _ _ _ => exec_keeps_runInvariant) fun _ _ hs =>
    ⟨hs.mem_wf, hs.text_wf, hs.pc_aligned, hs.no_pending, hs.summaries⟩

/-! ## Runs -/

/-- The first step of a run that faults: it faults, or it goes on to a run that does. -/
theorem run_succ_fault {M : Host.Core} {k : Nat} {s : M.State} {r : M.Fault} (h : M.run (k + 1) s = .fault r) :
    M.step s = .fault r ∨ ∃ t, M.step s = .next t ∧ M.run k t = .fault r := by
  rw [Host.Core.run] at h
  split at h
  · next t ht => exact .inr ⟨t, ht, h⟩
  · next r' hr => cases h; exact .inl hr
  · cases h

/-- What every step keeps, and under which no step faults, keeps a run of any length from faulting. -/
theorem safeFor_of_invariant {P : State → Prop} (hkeep : ∀ s t, P s → step s = .next t → P t)
    (hsafe : ∀ s r, P s → step s ≠ .fault r) (n : Nat) {s : State} (hs : P s) : SafeFor n s := by
  intro k _ r
  induction k generalizing s with
  | zero => intro h; cases h
  | succ k ih =>
    intro h
    rcases run_succ_fault h with hfault | ⟨t, hnext, hrun⟩
    · exact hsafe s r hs hfault
    · exact ih (hkeep s t hs hnext) (by omega) hrun

/-- A step that faults executed an instruction that does. -/
theorem step_fault {s : State} {r : Fault} (h : step s = .fault r) : ∃ i r', exec i s = .fault r' := by
  unfold step at h
  split at h
  · next i _ => exact ⟨i, r, h⟩
  · exact execWord_fault h
  · cases h

/-- Both MSR bits are 0: no enable is valid (60_exceptions.md R152). -/
def MsrClear (s : State) : Prop := s.msr20 = false ∧ s.msr23 = false

theorem exec_keeps_msrClear {i : Instr} {s t : State} (hs : MsrClear s) (h : exec i s = .next t) : MsrClear t := by
  obtain ⟨hmsr20, hmsr23, -⟩ := noInstructionWritesMsrOrProgram i s t h
  exact ⟨hmsr20.trans hs.1, hmsr23.trans hs.2⟩

theorem step_ne_fault_of_msrClear {s : State} (hs : MsrClear s) (r : Fault) : step s ≠ .fault r := by
  intro h
  obtain ⟨i, r', hfault⟩ := step_fault h
  exact nothingElseFaults i s r' (.inl hs) hfault

/-- Settles O59: the MSR bits stay clear, and with them clear no instruction faults. -/
theorem runsWithMsrClearNeverFault : Obligations.RunsWithMsrClearNeverFault := fun n _ h20 h23 =>
  safeFor_of_invariant (P := MsrClear)
    (fun _ _ => step_keeps (P := MsrClear) (fun _ _ _ => exec_keeps_msrClear) fun _ _ hs => hs)
    (fun _ r hs => step_ne_fault_of_msrClear hs r) n ⟨h20, h23⟩

/-! ## Reset -/

theorem regBit_zero (i : Nat) : regBit 0#32 i = false := by simp [regBit]

/-- Settles O2: the values of `State.reset`. -/
theorem resetLeavesTheLoggedValues : Obligations.ResetLeavesTheLoggedValues :=
  ⟨regBit_zero, regBit_zero, rfl, rfl, rfl, rfl, fun _ => rfl, fun _ => rfl,
    fun k hk => (admitsField_iff _ k).mpr (.inl ⟨rfl, hk⟩), rfl, rfl⟩

/-- Settles O60: nothing is placed, and no bit is set. -/
theorem resetMeetsTheInvariant : Obligations.ResetMeetsTheInvariant where
  mem_wf := rfl
  text_wf := rfl
  pc_aligned := rfl
  no_pending := fun e _ h => by
    obtain ⟨hstatus, -, -⟩ := h
    exact absurd hstatus (by simp [State.reset, regBit_zero])
  summaries := by decide

end Sys2Proof.Machine
end
